-- ==== Sys2Proof/Word.lean ====
section
/-! DEFINITION. The value types of the block (00_scope.md R9): unsigned integers of a stated width. -/

namespace Sys2Proof

/-- One byte of a byte sequence (R8, R10). -/
abbrev Byte := BitVec 8

/-- A u32 (R9): every register of the window is 32 bits wide (R16). -/
abbrev Word := BitVec 32

/-- A u64 (R9): MLEN and the timestamp operand. -/
abbrev DWord := BitVec 64

end Sys2Proof
end

