-- ==== Sys2Proof/Config.lean ====
section
/-! DEFINITION. What is fixed for a block: its identification constants, the parameters the spec leaves OPEN
(00_scope.md R7) and the one free value. The opaque constants have no body a proof could use: every theorem
about the model holds whatever they are. -/

namespace Sys2Proof.Config

/-- The page number of the register window. R7 leaves BASE open, "4 KiB aligned" (log 5). -/
opaque basePage : Nat

/-- BASE, the bus address of register offset 0x000, a multiple of 4096 by construction (R6, R7). -/
def base : Nat := 4096 * basePage

/-- The size of the register window in bytes (R44). -/
def windowSize : Nat := 4096

/-- IRQ_LINE, the platform interrupt number that `irq` drives (R7, R127). -/
opaque irqLine : Nat

/-- ID, the ASCII bytes "SHA1" (R17). -/
def idValue : Word := 0x53484131

/-- VERSION 1.0 (R18). -/
def versionValue : Word := 0x00010000

/-- FREE VALUE (log 14): what the division of R111 would give for TIMESTEP = 0, which the rule does not define
("the division never sees s = 0") and no run reaches (R24). -/
opaque stepsAtZeroTimestep : DWord → Word

end Sys2Proof.Config
end

