-- ==== Sys2Proof/Syntax.lean ====
section
/-! DEFINITION. The commands of the block (30_encoding.md R61): one constructor per row of spec/opcode_table.json. -/

namespace Sys2Proof

/-- A command: what a legal word written to CMD stands for. `len` is the LEN field (R59), an unsigned byte count. -/
inductive Instr where
  /-- NOP, OP 0x00 (R77). -/
  | nop
  /-- SHA_INIT, OP 0x01 (R98). -/
  | shaInit
  /-- SHA_COMPRESS, OP 0x02 (R89). -/
  | shaCompress
  /-- SHA_UPDATE LEN, OP 0x03 (R99). -/
  | shaUpdate (len : Nat)
  /-- SHA_FINAL, OP 0x04 (R100). -/
  | shaFinal
  /-- SET_SECRET LEN, OP 0x10 (R105). -/
  | setSecret (len : Nat)
  /-- HMAC_INIT, OP 0x11 (R107). -/
  | hmacInit
  /-- HMAC_FINAL, OP 0x12 (R108). -/
  | hmacFinal
  /-- SET_TIMESTEP, OP 0x20 (R114). -/
  | setTimestep
  /-- TOTP_STEPS, OP 0x21 (R115). -/
  | totpSteps
  /-- TOTP_TIME, OP 0x22 (R116). -/
  | totpTime
  /-- TRUNCATE, OP 0x23 (R117). -/
  | truncate
deriving DecidableEq, Repr

end Sys2Proof
end

