-- ==== Sys2Proof/WellFormed.lean ====
section
/-! DEFINITION. Which commands can be written as a command word. -/

namespace Sys2Proof

/-- A byte count fits the LEN field: "an unsigned byte count 0..127" (R59). The tighter ranges of SHA_UPDATE and
SET_SECRET are not checked here: an encodable LEN outside them "completes with ERR = BADLEN" (R59). -/
def lenFits (len : Nat) : Bool := decide (len < 128)

/-- A command that some command word stands for. -/
def Instr.wellFormed : Instr → Bool
  | .nop => true
  | .shaInit => true
  | .shaCompress => true
  | .shaUpdate len => lenFits len
  | .shaFinal => true
  | .setSecret len => lenFits len
  | .hmacInit => true
  | .hmacFinal => true
  | .setTimestep => true
  | .totpSteps => true
  | .totpTime => true
  | .truncate => true

end Sys2Proof
end

