-- ==== Sys2Proof/Decode.lean ====
section
/-! DEFINITION. From a command word to a command and back (30_encoding.md R57..R63). -/

namespace Sys2Proof

/-- Why a word is illegal (R63, its three cases). All three complete with the same ERR = BADOP. -/
inductive DecodeError where
  /-- "OP is not one of the twelve defined values" -/
  | reservedOpcode
  /-- "RSV (bits 31:15) is not 0" -/
  | reservedBits
  /-- "LEN is not 0 for an opcode that takes no LEN" -/
  | strayLen
deriving DecidableEq, Repr

/-- OP, bits 7:0 (R57). -/
def opField (w : Word) : BitVec 8 := w.extractLsb' 0 8

/-- LEN, bits 14:8 (R57). -/
def lenField (w : Word) : BitVec 7 := w.extractLsb' 8 7

/-- RSV, bits 31:15 (R57). -/
def rsvField (w : Word) : BitVec 17 := w.extractLsb' 15 17

/-- The command of an opcode that takes no LEN. -/
def withoutLen (w : Word) (i : Instr) : Except DecodeError Instr :=
  if lenField w = 0 then .ok i else .error .strayLen

/-- Decoding (R62, R63), total on all 2^32 words. The order in which the three errors are tested is not
observable: each gives BADOP (log 21). -/
def decode (w : Word) : Except DecodeError Instr :=
  if rsvField w ≠ 0 then .error .reservedBits
  else match (opField w).toNat with
    | 0x00 => withoutLen w .nop
    | 0x01 => withoutLen w .shaInit
    | 0x02 => withoutLen w .shaCompress
    | 0x03 => .ok (.shaUpdate (lenField w).toNat)
    | 0x04 => withoutLen w .shaFinal
    | 0x10 => .ok (.setSecret (lenField w).toNat)
    | 0x11 => withoutLen w .hmacInit
    | 0x12 => withoutLen w .hmacFinal
    | 0x20 => withoutLen w .setTimestep
    | 0x21 => withoutLen w .totpSteps
    | 0x22 => withoutLen w .totpTime
    | 0x23 => withoutLen w .truncate
    | _ => .error .reservedOpcode

/-- The opcode of a command (R61). -/
def opcodeOf : Instr → BitVec 8
  | .nop => 0x00
  | .shaInit => 0x01
  | .shaCompress => 0x02
  | .shaUpdate _ => 0x03
  | .shaFinal => 0x04
  | .setSecret _ => 0x10
  | .hmacInit => 0x11
  | .hmacFinal => 0x12
  | .setTimestep => 0x20
  | .totpSteps => 0x21
  | .totpTime => 0x22
  | .truncate => 0x23

/-- The byte count a command carries in LEN; 0 for the ten commands that take none (R61). -/
def lenOf : Instr → Nat
  | .nop => 0
  | .shaInit => 0
  | .shaCompress => 0
  | .shaUpdate len => len
  | .shaFinal => 0
  | .setSecret len => len
  | .hmacInit => 0
  | .hmacFinal => 0
  | .setTimestep => 0
  | .totpSteps => 0
  | .totpTime => 0
  | .truncate => 0

/-- The command word of a well-formed command (R57): bits 31:15 zero, LEN, OP. -/
def encode (i : Instr) : Word := (0 : BitVec 17) ++ BitVec.ofNat 7 (lenOf i) ++ opcodeOf i

/-- One row of R62's table. -/
structure OpcodeRow where
  mnemonic : String
  pattern : Word
  mask : Word
deriving DecidableEq, Repr

/-- "A word matches a command when (CMDW & mask) == match" (R62). -/
def OpcodeRow.accepts (r : OpcodeRow) (w : Word) : Bool := w &&& r.mask == r.pattern

/-- The twelve rows of R62, in the table's order. -/
def opcodeRows : List OpcodeRow :=
  [ ⟨"NOP", 0x00000000, 0xFFFFFFFF⟩,
    ⟨"SHA_INIT", 0x00000001, 0xFFFFFFFF⟩,
    ⟨"SHA_COMPRESS", 0x00000002, 0xFFFFFFFF⟩,
    ⟨"SHA_UPDATE", 0x00000003, 0xFFFF80FF⟩,
    ⟨"SHA_FINAL", 0x00000004, 0xFFFFFFFF⟩,
    ⟨"SET_SECRET", 0x00000010, 0xFFFF80FF⟩,
    ⟨"HMAC_INIT", 0x00000011, 0xFFFFFFFF⟩,
    ⟨"HMAC_FINAL", 0x00000012, 0xFFFFFFFF⟩,
    ⟨"SET_TIMESTEP", 0x00000020, 0xFFFFFFFF⟩,
    ⟨"TOTP_STEPS", 0x00000021, 0xFFFFFFFF⟩,
    ⟨"TOTP_TIME", 0x00000022, 0xFFFFFFFF⟩,
    ⟨"TRUNCATE", 0x00000023, 0xFFFFFFFF⟩ ]

/-- The mnemonic of a command (R61). -/
def mnemonicOf : Instr → String
  | .nop => "NOP"
  | .shaInit => "SHA_INIT"
  | .shaCompress => "SHA_COMPRESS"
  | .shaUpdate _ => "SHA_UPDATE"
  | .shaFinal => "SHA_FINAL"
  | .setSecret _ => "SET_SECRET"
  | .hmacInit => "HMAC_INIT"
  | .hmacFinal => "HMAC_FINAL"
  | .setTimestep => "SET_TIMESTEP"
  | .totpSteps => "TOTP_STEPS"
  | .totpTime => "TOTP_TIME"
  | .truncate => "TRUNCATE"

/-- The command word of `nbits` bits numbered as the opcode table numbers them; a command is always one 32-bit
word (R58), carried whole by the bus, so bits above `nbits` are zero and no byte order enters (R42). -/
def tableWord (nbits w : Nat) : Word := BitVec.ofNat 32 (w % 2 ^ nbits)

/-- The command this decoder reads from an opcode-table word; none where it is illegal. -/
def decodeTableWord (nbits w : Nat) : Option Instr :=
  match decode (tableWord nbits w) with
  | .ok i => some i
  | .error _ => none

end Sys2Proof
end

