-- ==== Sys2Proof/Machine/Bytes.lean ====
section
/-! DEFINITION. Byte sequences, byte order and rotation (00_scope.md R9, R10; 20_memory.md R41, R42). -/

namespace Sys2Proof.Machine

/-- `rotl(x, n) = ((x << n) | (x >> (32 - n)))[31:0]` for 0 < n < 32 (R9). -/
def rotl (x : Word) (n : Nat) : Word := (x <<< n) ||| (x >>> (32 - n))

/-- Byte `i` of a sequence (R8). Every use is inside the sequence. -/
def byteAt (S : List Byte) (i : Nat) : Byte := S.getD i 0

/-- `be32(S, i)`: four bytes from `i`, the first the most significant (R10). -/
def be32 (S : List Byte) (i : Nat) : Word :=
  byteAt S i ++ byteAt S (i + 1) ++ byteAt S (i + 2) ++ byteAt S (i + 3)

/-- `BE32(x)`: the four bytes of a word, most significant first (R10). -/
def bytesOfWord (x : Word) : List Byte :=
  [x.extractLsb' 24 8, x.extractLsb' 16 8, x.extractLsb' 8 8, x.extractLsb' 0 8]

/-- `BE64(x)`: the eight bytes of a u64, most significant first (R10). -/
def bytesOfDWord (x : DWord) : List Byte :=
  bytesOfWord (x.extractLsb' 32 32) ++ bytesOfWord (x.extractLsb' 0 32)

/-- `zeros(n)` (R10). -/
def zeros (n : Nat) : List Byte := List.replicate n 0

/-- `S ^ T` on sequences of equal length (R10). -/
def xorBytes (S T : List Byte) : List Byte := List.zipWith (· ^^^ ·) S T

/-- The first `n` bytes of a sequence as a buffer of `n` bytes, a shorter sequence filled up with zero bytes: the
zero padding of R92, R101 and R105. -/
def padTo (n : Nat) (S : List Byte) : Vector Byte n :=
  ⟨((S ++ zeros n).take n).toArray, by simp [zeros]⟩

/-- Word `k` of a buffer of 64 bytes is replaced: `DATA[4k..4k+3] <- BE32(v)` (R67, R42). -/
def setWord (buf : Vector Byte 64) (k : Fin 16) (v : Word) : Vector Byte 64 :=
  (((buf.set (4 * k.val) (v.extractLsb' 24 8) (by omega)).set
      (4 * k.val + 1) (v.extractLsb' 16 8) (by omega)).set
      (4 * k.val + 2) (v.extractLsb' 8 8) (by omega)).set
      (4 * k.val + 3) (v.extractLsb' 0 8) (by omega)

end Sys2Proof.Machine
end

