-- ==== Sys2Proof/Machine/Compressor.lean ====
section
/-! DEFINITION. The SHA-1 block compressor (41_compressor.md R79..R88): a pure function of the chaining state and
one block. -/

namespace Sys2Proof.Machine

/-- The next schedule word, from the words so far, newest first: `W[i-3]`, `W[i-8]`, `W[i-14]` and `W[i-16]` stand
at places 2, 7, 13 and 15 (R80). -/
def nextScheduleWord (newestFirst : List Word) : Word :=
  rotl (newestFirst.getD 2 0 ^^^ newestFirst.getD 7 0 ^^^ newestFirst.getD 13 0 ^^^ newestFirst.getD 15 0) 1

/-- `n` more schedule words, newest first (R80). -/
def extendSchedule : Nat → List Word → List Word
  | 0, ws => ws
  | n + 1, ws => extendSchedule n (nextScheduleWord ws :: ws)

/-- `W[0..15]`, the big-endian words of the block (R80). -/
def blockWords (block : Vector Byte 64) : List Word :=
  (List.range 16).map fun j => be32 block.toList (4 * j)

/-- The message schedule `W[0..79]` (R80). -/
def schedule (block : Vector Byte 64) : List Word :=
  (extendSchedule 64 (blockWords block).reverse).reverse

/-- `f(t, b, c, d)` (R81): choose, parity, majority, parity. -/
def roundFunction (t : Nat) (b c d : Word) : Word :=
  if t < 20 then (b &&& c) ||| (~~~b &&& d)
  else if t < 40 then b ^^^ c ^^^ d
  else if t < 60 then (b &&& c) ||| (b &&& d) ||| (c &&& d)
  else b ^^^ c ^^^ d

/-- `K(t)` (R82). -/
def roundConstant (t : Nat) : Word :=
  if t < 20 then 0x5A827999
  else if t < 40 then 0x6ED9EBA1
  else if t < 60 then 0x8F1BBCDC
  else 0xCA62C1D6

/-- The working variables a, b, c, d, e (R39, R83): they exist only inside one compression. -/
structure Working where
  a : Word
  b : Word
  c : Word
  d : Word
  e : Word
deriving DecidableEq, Repr

/-- The round step of round `t` with schedule word `w`; additions wrap mod 2^32 (R83, R85). -/
def roundStep (t : Nat) (w : Word) (v : Working) : Working :=
  { a := rotl v.a 5 + roundFunction t v.b v.c v.d + v.e + roundConstant t + w
    b := v.a
    c := rotl v.b 30
    d := v.c
    e := v.d }

/-- The rounds from `t` on, one for each schedule word (R83). -/
def runRounds : Nat → List Word → Working → Working
  | _, [], v => v
  | t, w :: ws, v => runRounds (t + 1) ws (roundStep t w v)

/-- The working variables before round 0 (R83). -/
def workingOf (h : Vector Word 5) : Working :=
  { a := h[0], b := h[1], c := h[2], d := h[3], e := h[4] }

/-- The feed-forward: the working variables are added into the chaining state (R84). -/
def feedForward (h : Vector Word 5) (v : Working) : Vector Word 5 :=
  #v[h[0] + v.a, h[1] + v.b, h[2] + v.c, h[3] + v.d, h[4] + v.e]

/-- `compress(Hin, block)` (R79..R84). -/
def compress (h : Vector Word 5) (block : Vector Byte 64) : Vector Word 5 :=
  feedForward h (runRounds 0 (schedule block) (workingOf h))

end Sys2Proof.Machine
end

