-- ==== Sys2Proof/Machine/State.lean ====
section
/-! DEFINITION. The state of the block (10_state.md), as plain data, and its value right after reset
(70_reset_and_hazards.md R137). -/

namespace Sys2Proof.Machine

/-- STATUS.MODE (R20): "The legal values of MODE are 0, 1 and 2" (log 12). -/
inductive Mode where
  /-- 0: no stream is open. -/
  | idle
  /-- 1: a plain SHA-1 stream. -/
  | hash
  /-- 2: a keyed stream. -/
  | hmac
deriving DecidableEq, Repr

/-- STATUS.ERR (R122): "The legal values of ERR are 0..5" (R20; log 12). -/
inductive ErrCode where
  /-- 0: the command did what its rule says. -/
  | ok
  /-- 1: the command word matches no row. -/
  | badop
  /-- 2: a stream command is not legal in the current MODE. -/
  | seq
  /-- 3: LEN is outside the opcode's range. -/
  | badlen
  /-- 4: no secret is configured. -/
  | nokey
  /-- 5: a zero time step was given. -/
  | badstep
deriving DecidableEq, Repr

/-- The width of a bus access. Only 32 bits is inside the interface (R45). -/
inductive AccessWidth where
  | bits8
  | bits16
  | bits32
  | bits64
deriving DecidableEq, Repr

/-- One entry of the total order in which host accesses and completions fall (R52, R128), and the edges of the
reset input (R137). -/
inductive BusEvent where
  /-- HOST reads at an absolute bus address. -/
  | read (addr : Nat) (width : AccessWidth)
  /-- HOST writes at an absolute bus address. The value of an access of another width does not matter: it is refused. -/
  | write (addr : Nat) (width : AccessWidth) (value : Word)
  /-- ENGINE has its turn: it completes the command in flight, if there is one (R69). -/
  | engine
  /-- `rst` is asserted. -/
  | assertRst
  /-- `rst` is released. -/
  | releaseRst
deriving DecidableEq, Repr

/-- The stream registers: the chaining state H0..H4 (R31), the byte count MLEN (R27), FILL (R26) and the
partial-block buffer PBUF (R36). -/
structure HashStream where
  h : Vector Word 5
  mlen : DWord
  fill : Fin 64
  pbuf : Vector Byte 64
deriving DecidableEq, Repr

/-- The block, the reset input, and what is still to happen at its edge. -/
structure State where
  /-- CTRL.IE (R19). -/
  ie : Bool
  /-- STATUS.BUSY (R20). -/
  busy : Bool
  /-- STATUS.DONE (R20). -/
  done : Bool
  /-- STATUS.OVR (R20, R124). -/
  ovr : Bool
  /-- STATUS.VALID (R20). -/
  valid : Bool
  /-- STATUS.MODE (R20). -/
  mode : Mode
  /-- STATUS.ERR (R20, R122). -/
  err : ErrCode
  /-- CMDW, hidden (R38). -/
  cmdw : Word
  /-- ARG_LO (R22). -/
  argLo : Word
  /-- ARG_HI (R22). -/
  argHi : Word
  /-- TIMESTEP (R24). -/
  timestep : Word
  /-- KEYLEN, 0..32 (R25; log 13). -/
  keyLen : Fin 33
  /-- KEY[0..31], hidden (R35). -/
  key : Vector Byte 32
  /-- H0..H4, MLEN, FILL, PBUF (R31, R27, R26, R36). -/
  stream : HashStream
  /-- KPAD[0..63], hidden (R37). -/
  kpad : Vector Byte 64
  /-- DIG[0..19], the bytes of DIGEST0..DIGEST4 (R32). -/
  dig : Vector Byte 20
  /-- DATA[0..63], the bytes of DATA0..DATA15 (R33). -/
  data : Vector Byte 64
  /-- CODE (R28). -/
  code : Word
  /-- CODE_ASCII0 (R29). -/
  codeAscii0 : Word
  /-- CODE_ASCII1 (R29). -/
  codeAscii1 : Word
  /-- STEPS (R30). -/
  steps : Word
  /-- Whether the reset input is asserted (R137; log 8). -/
  rst : Bool
  /-- The MODEL's own: the rest of the total order of R52 (log 2). -/
  agenda : List BusEvent
  /-- The MODEL's own: the value the last HostRead returned (R66; log 9). -/
  rdata : Option Word
deriving DecidableEq, Repr

/-- Why the machine stops with a fault. The block has no trap and no fault state of its own (R129). -/
inductive Fault where
  /-- Raised by a bus event: the address is not in the register window, which is the block's whole address space
  (R44). Safe: the model stops (log 6). -/
  | outsideWindow
deriving DecidableEq, Repr

/-- Why the model gives no meaning. -/
inductive Refusal where
  /-- Raised by an arm of `exec` that has no meaning yet. Safe. No arm of this model raises it. -/
  | notModelled (mnemonic : String)
  /-- Raised by a bus event whose width is not 32 bits: "A model must refuse it" (R45, U6). Safe. -/
  | accessWidth
  /-- Raised by a bus event at an address that is not a multiple of 4: "A model must refuse it" (R45, U6). Safe. -/
  | misalignedAccess
  /-- Raised by a bus event while `rst` is asserted: "a model refuses it" (R137, U7). Safe. -/
  | accessDuringReset
  /-- Raised by the host verifier procedure for a test timestamp of 2^64 or more, which "the host must not form"
  (R120, U19). Safe. -/
  | timestampTooWide
deriving DecidableEq, Repr

/-- What a command, a bus event or a step answers. -/
abbrev Result := Host.Outcome State Fault Refusal

/-- `n` zero bytes as a buffer (R10: `zeros(n)`). -/
abbrev zeroBytes (n : Nat) : Vector Byte n := Vector.replicate n 0

/-- The stream registers at reset (R137): "not the SHA-1 IV; SHA_INIT loads that". -/
def HashStream.reset : HashStream :=
  { h := Vector.replicate 5 0, mlen := 0, fill := 0, pbuf := zeroBytes 64 }

/-- The machine right after reset (R137), with `rst` released (log 8) and nothing placed on the agenda (log 2). -/
def State.reset : State :=
  { ie := false
    busy := false
    done := false
    ovr := false
    valid := false
    mode := .idle
    err := .ok
    cmdw := 0
    argLo := 0
    argHi := 0
    timestep := 30
    keyLen := 0
    key := zeroBytes 32
    stream := HashStream.reset
    kpad := zeroBytes 64
    dig := zeroBytes 20
    data := zeroBytes 64
    code := 0
    codeAscii0 := 0x30303030
    codeAscii1 := 0x30300000
    steps := 0
    rst := false
    agenda := []
    rdata := none }

end Sys2Proof.Machine
end

