-- ==== Sys2Proof/Machine/Flags.lean ====
section
/-! DEFINITION. STATUS and its fields, the completion of a command and the interrupt output
(10_state.md R20, R40; 40_interface.md R68..R70; 60_exceptions.md R122..R128). -/

namespace Sys2Proof.Machine

/-- MODE as its two bits (R20). -/
def Mode.bits : Mode → BitVec 2
  | .idle => 0
  | .hash => 1
  | .hmac => 2

/-- ERR as its four bits (R122). -/
def ErrCode.bits : ErrCode → BitVec 4
  | .ok => 0
  | .badop => 1
  | .seq => 2
  | .badlen => 3
  | .nokey => 4
  | .badstep => 5

/-- STATUS.KEYSET "equals (KEYLEN ≠ 0), at every instant" (R20). -/
def keySet (s : State) : Bool := decide (s.keyLen ≠ 0)

/-- CTRL as read: IE in bit 0, the rest 0 (R19, R66). -/
def ctrlWord (s : State) : Word := (BitVec.ofBool s.ie).setWidth 32

/-- STATUS as read (R20, R66): bits 31:12 and 7 reserved, ERR 11:8, MODE 6:5, VALID 4, KEYSET 3, OVR 2, DONE 1, BUSY 0. -/
def statusWord (s : State) : Word :=
  (0 : BitVec 20) ++ s.err.bits ++ (0 : BitVec 1) ++ s.mode.bits ++ BitVec.ofBool s.valid ++
    BitVec.ofBool (keySet s) ++ BitVec.ofBool s.ovr ++ BitVec.ofBool s.done ++ BitVec.ofBool s.busy

/-- `irq = CTRL.IE & STATUS.DONE`, at every instant (R127). -/
def irq (s : State) : Bool := s.ie && s.done

/-- The platform interrupt request the block drives, if any: `irq` is connected to IRQ_LINE (R127, R7). -/
def irqRequest (s : State) : Option Nat := if irq s then some Config.irqLine else none

/-- A write to CTRL (R67): only bit 0 is kept. -/
def writeCtrl (v : Word) (s : State) : State := { s with ie := v.getLsbD 0 }

/-- A write to STATUS (R67): a 1 in bit 1 clears DONE, a 1 in bit 2 clears OVR, other bits are ignored. -/
def writeStatus (v : Word) (s : State) : State :=
  { s with done := s.done && !v.getLsbD 1, ovr := s.ovr && !v.getLsbD 2 }

/-- A guarded write while BUSY = 1 is dropped and sets OVR (R68, R124). -/
def dropWrite (s : State) : State := { s with ovr := true }

/-- Acceptance: `CMDW <- v; BUSY <- 1; DONE <- 0`. "Acceptance changes nothing else" (R68). -/
def accept (v : Word) (s : State) : State := { s with cmdw := v, busy := true, done := false }

/-- The end of every completion (R69): `ERR <- e; BUSY <- 0; DONE <- 1`. -/
def finish (e : ErrCode) (s : State) : State := { s with err := e, busy := false, done := true }

/-- Completion of a command from what its rule answered (R69, R70): with an error code nothing but ERR, BUSY and DONE
is written to the state the command began in; otherwise the command's writes stand and ERR is OK. -/
def complete (s : State) : Except ErrCode State → State
  | .error e => finish e s
  | .ok s' => finish .ok s'

end Sys2Proof.Machine
end

