-- ==== Sys2Proof/Machine/Ops.lean ====
section
/-! DEFINITION. The named operations the commands share: the stream operations (42_hasher.md R90..R94), the HMAC
engine (43_hmac.md R101..R103, R107, R108), the TOTP unit (44_totp.md R109..R113). The block takes no trap (R129), so
there is no exception entry and no return: what ends a command is `complete` of Flags.lean. -/

namespace Sys2Proof.Machine

/-- IV, the SHA-1 initial value (R90). -/
def initialValue : Vector Word 5 :=
  #v[0x67452301, 0xEFCDAB89, 0x98BADCFE, 0x10325476, 0xC3D2E1F0]

/-- `start()`: H <- IV, MLEN <- 0, FILL <- 0, PBUF <- zeros(64) (R98). -/
def HashStream.start : HashStream :=
  { h := initialValue, mlen := 0, fill := 0, pbuf := zeroBytes 64 }

/-- One byte of `absorb` (R91): it goes into PBUF, and a full PBUF is compressed at once. -/
def absorbByte (x : Byte) (st : HashStream) : HashStream :=
  let pbuf := st.pbuf.set st.fill.val x st.fill.isLt
  let mlen := st.mlen + 1
  if room : st.fill.val + 1 < 64 then
    { st with pbuf := pbuf, mlen := mlen, fill := ⟨st.fill.val + 1, room⟩ }
  else
    { h := compress st.h pbuf, pbuf := pbuf, mlen := mlen, fill := 0 }

/-- `absorb(S)`, in order, byte by byte (R91). -/
def absorb (S : List Byte) (st : HashStream) : HashStream :=
  S.foldl (fun st x => absorbByte x st) st

/-- The message bytes of PBUF that are not yet compressed (R36). -/
def HashStream.partialBlock (st : HashStream) : List Byte := st.pbuf.toList.take st.fill.val

/-- The message bit length a final block encodes: `trunc_64(8 * MLEN)` (R27, R92). -/
def HashStream.bitLength (st : HashStream) : DWord := 8 * st.mlen

/-- `BE32(H0) ‖ … ‖ BE32(H4)` (R92). -/
def serialize (h : Vector Word 5) : Vector Byte 20 := padTo 20 (h.toList.flatMap bytesOfWord)

/-- The chaining state after the padding blocks of `finalize()` (R92): when the 0x80 byte leaves no room for the length,
the partial block is filled with zeros and compressed, and the length goes into a block of its own. -/
def finalState (st : HashStream) : Vector Word 5 :=
  let P := st.partialBlock ++ [0x80]
  let length := bytesOfDWord st.bitLength
  if 56 < P.length then
    compress (compress st.h (padTo 64 P)) (padTo 64 (zeros 56 ++ length))
  else
    compress st.h (padTo 64 (P ++ zeros (56 - P.length) ++ length))

/-- The 20 bytes `finalize()` returns (R92). -/
def finalDigest (st : HashStream) : Vector Byte 20 := serialize (finalState st)

/-- The stream registers after `finalize()` (R93): H keeps the final chaining state, the rest is cleared. -/
def HashStream.closed (st : HashStream) : HashStream :=
  { h := finalState st, mlen := 0, fill := 0, pbuf := zeroBytes 64 }

/-- `SHA1(M)`: what `finalize()` returns after `start(); absorb(M)` (R94). -/
def sha1 (M : List Byte) : Vector Byte 20 := finalDigest (absorb M HashStream.start)

/-- `K0(K)` (R101), both branches; a key of more than 64 bytes is replaced by its digest (log 19). -/
def paddedKey (K : List Byte) : Vector Byte 64 :=
  if 64 < K.length then padTo 64 (sha1 K).toList else padTo 64 K

/-- IPAD (R102). -/
def ipad : List Byte := List.replicate 64 0x36

/-- OPAD (R102). -/
def opad : List Byte := List.replicate 64 0x5c

/-- The configured secret, `KEY[0..KEYLEN)` (R25, R35). -/
def secret (s : State) : List Byte := s.key.toList.take s.keyLen.val

/-- The inner stream of a keyed hash, opened under the padded key: `start(); absorb(K0 ^ IPAD)` (R107). -/
def openInner (K0 : Vector Byte 64) : HashStream := absorb (xorBytes K0.toList ipad) HashStream.start

/-- The outer stream of a keyed hash, with the inner digest absorbed: `start(); absorb(K0 ^ OPAD); absorb(inner)` (R108). -/
def openOuter (K0 : Vector Byte 64) (inner : Vector Byte 20) : HashStream :=
  absorb inner.toList (absorb (xorBytes K0.toList opad) HashStream.start)

/-- The body of HMAC_INIT after its check (R107): K0 is latched in KPAD and the inner key block absorbed. -/
def hmacOpen (s : State) : State :=
  { s with
    kpad := paddedKey (secret s)
    stream := openInner (paddedKey (secret s))
    mode := .hmac }

/-- The body of HMAC_FINAL after its check (R108): inner digest, outer hash, MAC published, KPAD cleared. The inner digest is
a value of this step only (R39). -/
def hmacClose (s : State) : State :=
  let outer := openOuter s.kpad (finalDigest s.stream)
  { s with
    dig := finalDigest outer
    stream := outer.closed
    kpad := zeroBytes 64
    mode := .idle }

/-- The offset of dynamic truncation, `mac[19] & 0x0F` (R109). -/
def truncationOffset (mac : Vector Byte 20) : Nat := (byteAt mac.toList 19 &&& 0x0F).toNat

/-- The value v of dynamic truncation: four bytes from the offset, the first without its top bit (R109). -/
def truncationValue (mac : Vector Byte 20) : Word :=
  let o := truncationOffset mac
  ((byteAt mac.toList o &&& 0x7F).setWidth 32 <<< 24) |||
    ((byteAt mac.toList (o + 1)).setWidth 32 <<< 16) |||
    ((byteAt mac.toList (o + 2)).setWidth 32 <<< 8) |||
    (byteAt mac.toList (o + 3)).setWidth 32

/-- The 6-digit code of a MAC, `v mod 1000000` (R109). -/
def truncateMac (mac : Vector Byte 20) : Nat := (truncationValue mac).toNat % 1000000

/-- `Di = 0x30 + ((c / 10^(6-i)) mod 10)`, D1 the most significant digit (R110). -/
def asciiDigit (c i : Nat) : Byte := BitVec.ofNat 8 (0x30 + c / 10 ^ (6 - i) % 10)

/-- `D1 ‖ D2 ‖ D3 ‖ D4` (R29, R110). -/
def asciiHigh (c : Nat) : Word := asciiDigit c 1 ++ asciiDigit c 2 ++ asciiDigit c 3 ++ asciiDigit c 4

/-- `D5 ‖ D6 ‖ 0x00 ‖ 0x00` (R29, R110). -/
def asciiLow (c : Nat) : Word := asciiDigit c 5 ++ asciiDigit c 6 ++ (0 : BitVec 16)

/-- `setcode(c)` (R110). -/
def setCode (c : Nat) (s : State) : State :=
  { s with code := BitVec.ofNat 32 c, codeAscii0 := asciiHigh c, codeAscii1 := asciiLow c, valid := true }

/-- `setsentinel()` (R110, R113). -/
def setSentinel (s : State) : State :=
  { s with code := 0, codeAscii0 := 0x30303030, codeAscii1 := 0x30300000, valid := false }

/-- The 8-byte big-endian counter, "top 4 bytes zero" (R112, R41(d)). -/
def counterBytes (steps : Word) : List Byte := zeros 4 ++ bytesOfWord steps

/-- `steps(t) = trunc_32(t / s)` (R111). The rule does not define s = 0, which no run reaches (R24): a free value (log 14). -/
def stepsOf (t : DWord) (timestep : Word) : Word :=
  if timestep = 0 then Config.stepsAtZeroTimestep t else BitVec.ofNat 32 (t.toNat / timestep.toNat)

/-- The counter block is absorbed into the open keyed stream (R112). -/
def absorbCounter (steps : Word) (s : State) : State :=
  { s with stream := absorb (counterBytes steps) s.stream }

/-- `totp_hash(s)` (R112): the HMAC of the counter under the secret, STEPS, and the code of the MAC. -/
def totpHash (steps : Word) (s : State) : State :=
  let hashed := hmacClose (absorbCounter steps (hmacOpen s))
  setCode (truncateMac hashed.dig) { hashed with steps := steps }

end Sys2Proof.Machine
end

