-- ==== Sys2Proof/Machine/Operands.lean ====
section
/-! DEFINITION. Where operands come from: the register operands of a command (30_encoding.md R59, R60) and the
register map of the window (10_state.md R16; 20_memory.md R44, R50). -/

namespace Sys2Proof.Machine

/-- `DATA[0..LEN)` (R60, R99, R105). -/
def dataBytes (len : Nat) (s : State) : List Byte := s.data.toList.take len

/-- `ARG_HI ‖ ARG_LO`, the u64 Unix timestamp (R60, R116). -/
def timestamp (s : State) : DWord := s.argHi ++ s.argLo

/-- A register of the window (R16). -/
inductive Reg where
  | id
  | version
  | ctrl
  | status
  | cmd
  | argLo
  | argHi
  | timestep
  | keyLen
  | fill
  | mlenLo
  | mlenHi
  | code
  | codeAscii0
  | codeAscii1
  | steps
  | h (k : Fin 5)
  | digest (k : Fin 5)
  | data (k : Fin 16)
  /-- A reserved offset (R50). -/
  | reserved
deriving DecidableEq, Repr

/-- The register map (R16), offset and register, in the order of the table. -/
def registerMap : List (Nat × Reg) :=
  [ (0x000, .id), (0x004, .version), (0x008, .ctrl), (0x00C, .status), (0x010, .cmd), (0x014, .argLo),
    (0x018, .argHi), (0x01C, .timestep), (0x020, .keyLen), (0x024, .fill), (0x028, .mlenLo), (0x02C, .mlenHi),
    (0x030, .code), (0x034, .codeAscii0), (0x038, .codeAscii1), (0x03C, .steps) ] ++
  [ (0x040, .h 0), (0x044, .h 1), (0x048, .h 2), (0x04C, .h 3), (0x050, .h 4) ] ++
  [ (0x060, .digest 0), (0x064, .digest 1), (0x068, .digest 2), (0x06C, .digest 3), (0x070, .digest 4) ] ++
  [ (0x080, .data 0), (0x084, .data 1), (0x088, .data 2), (0x08C, .data 3), (0x090, .data 4), (0x094, .data 5),
    (0x098, .data 6), (0x09C, .data 7), (0x0A0, .data 8), (0x0A4, .data 9), (0x0A8, .data 10), (0x0AC, .data 11),
    (0x0B0, .data 12), (0x0B4, .data 13), (0x0B8, .data 14), (0x0BC, .data 15) ]

/-- `REG(off)` (R11): the register at an offset; an offset the map does not list is reserved (R50). -/
def regAt (off : Nat) : Reg := (registerMap.lookup off).getD .reserved

/-- The guarded registers: a write to one while BUSY = 1 is dropped (R16, R68). -/
def Reg.guarded : Reg → Bool
  | .cmd => true
  | .argLo => true
  | .argHi => true
  | .h _ => true
  | .data _ => true
  | _ => false

/-- The offset of an absolute bus address in the window, `BASE + offset` (R44, R76); none outside it. -/
def offsetOf (addr : Nat) : Option Nat :=
  if Config.base ≤ addr ∧ addr < Config.base + Config.windowSize then some (addr - Config.base) else none

end Sys2Proof.Machine
end

