-- ==== Sys2Proof/Machine/Bus.lean ====
section
/-! DEFINITION. What HOST can do to the block: reads, writes and the reset input (40_interface.md R66..R68;
20_memory.md R44, R45, R50; 70_reset_and_hazards.md R137). -/

namespace Sys2Proof.Machine

/-- `HostRead(off)`, by register (R66). -/
def hostRead (r : Reg) (s : State) : Word :=
  match r with
  | .id => Config.idValue
  | .version => Config.versionValue
  | .ctrl => ctrlWord s
  | .status => statusWord s
  | .cmd => 0
  | .argLo => s.argLo
  | .argHi => s.argHi
  | .timestep => s.timestep
  | .keyLen => BitVec.ofNat 32 s.keyLen.val
  | .fill => BitVec.ofNat 32 s.stream.fill.val
  | .mlenLo => s.stream.mlen.extractLsb' 0 32
  | .mlenHi => s.stream.mlen.extractLsb' 32 32
  | .code => s.code
  | .codeAscii0 => s.codeAscii0
  | .codeAscii1 => s.codeAscii1
  | .steps => s.steps
  | .h k => s.stream.h[k.val]
  | .digest k => be32 s.dig.toList (4 * k.val)
  | .data k => be32 s.data.toList (4 * k.val)
  | .reserved => 0

/-- The write of a guarded register while BUSY = 0 (R67). -/
def guardedWrite (r : Reg) (v : Word) (s : State) : State :=
  match r with
  | .cmd => accept v s
  | .argLo => { s with argLo := v }
  | .argHi => { s with argHi := v }
  | .h k => { s with stream := { s.stream with h := s.stream.h.set k.val v } }
  | .data k => { s with data := setWord s.data k v }
  | _ => s

/-- `HostWrite(off, v)`, by register (R67): CTRL and STATUS at any time, a guarded register only while BUSY = 0,
any other write has no effect. -/
def hostWrite (r : Reg) (v : Word) (s : State) : State :=
  match r with
  | .ctrl => writeCtrl v s
  | .status => writeStatus v s
  | r => if r.guarded then (if s.busy then dropWrite s else guardedWrite r v s) else s

/-- A bus access reaches a register when its address lies in the window, it is a 32-bit access at a multiple of 4 and
`rst` is not asserted. The model faults outside the window (log 6) and refuses what the interface does not define
(R45, R126, R137). -/
def access (addr : Nat) (width : AccessWidth) (s : State) (use : Reg → State) : Result :=
  match offsetOf addr with
  | none => .fault .outsideWindow
  | some off =>
    if s.rst then .refused .accessDuringReset
    else if width ≠ .bits32 then .refused .accessWidth
    else if off % 4 ≠ 0 then .refused .misalignedAccess
    else .next (use (regAt off))

/-- A host read: the value is returned to HOST, and no state of the block changes (R66, R47). -/
def busRead (addr : Nat) (width : AccessWidth) (s : State) : Result :=
  access addr width s fun r => { s with rdata := some (hostRead r s) }

/-- A host write (R67). -/
def busWrite (addr : Nat) (width : AccessWidth) (v : Word) (s : State) : Result :=
  access addr width s fun r => hostWrite r v s

/-- Every element of the block at its reset value (R137), the reset input as given; what HOST still does and the last
value it read are not the block's. -/
def resetBlock (asserted : Bool) (s : State) : State :=
  { State.reset with rst := asserted, agenda := s.agenda, rdata := s.rdata }

/-- `rst` is asserted: a command in flight is abandoned (R137). -/
def assertReset (s : State) : State := resetBlock true s

/-- `rst` is released: "when it is released, every state element holds the value below" (R137). A release of an input
that is not asserted is no edge and changes nothing (log 8). -/
def releaseReset (s : State) : State := if s.rst then resetBlock false s else s

end Sys2Proof.Machine
end

