-- ==== Sys2Proof/Machine/Hmac.lean ====
section
/-! DEFINITION. The meanings of SET_SECRET, HMAC_INIT and HMAC_FINAL (43_hmac.md R105..R108). -/

namespace Sys2Proof.Machine

/-- SET_SECRET LEN (R105): KEY is wholly overwritten, and the staged secret is cleared from DATA. -/
def execSetSecret (len : Nat) (s : State) : Result :=
  .next (complete s (
    if legal : len = 0 ∨ 32 < len then .error .badlen
    else .ok { s with
      key := padTo 32 (dataBytes len s)
      keyLen := ⟨len, by omega⟩
      data := zeroBytes 64 }))

/-- HMAC_INIT (R107): NOKEY when no secret is configured; any open stream is abandoned. -/
def execHmacInit (s : State) : Result :=
  .next (complete s (if s.keyLen = 0 then .error .nokey else .ok (hmacOpen s)))

/-- HMAC_FINAL (R108): only in MODE = HMAC. -/
def execHmacFinal (s : State) : Result :=
  .next (complete s (if s.mode ≠ .hmac then .error .seq else .ok (hmacClose s)))

end Sys2Proof.Machine
end

