-- ==== Sys2Proof/Machine/Interface.lean ====
section
/-! DEFINITION. The meaning of NOP (40_interface.md R77). A meaning is what the ENGINE step does with the accepted command:
the command's own rule, then ERR, BUSY and DONE (R69). -/

namespace Sys2Proof.Machine

/-- NOP (R77): only the completion bookkeeping. -/
def execNop (s : State) : Result := .next (complete s (.ok s))

end Sys2Proof.Machine
end

