-- ==== Sys2Proof/Machine/Sha.lean ====
section
/-! DEFINITION. The meanings of SHA_INIT, SHA_COMPRESS, SHA_UPDATE and SHA_FINAL (41_compressor.md R89; 42_hasher.md R98..R100). -/

namespace Sys2Proof.Machine

/-- SHA_INIT (R98): `start(); KPAD <- zeros(64); MODE <- HASH`, in any MODE. -/
def execShaInit (s : State) : Result :=
  .next (complete s (.ok { s with stream := HashStream.start, kpad := zeroBytes 64, mode := .hash }))

/-- SHA_COMPRESS (R89): H <- compress(H, DATA), in any MODE, and nothing else. -/
def execShaCompress (s : State) : Result :=
  .next (complete s (.ok { s with stream := { s.stream with h := compress s.stream.h s.data } }))

/-- SHA_UPDATE LEN (R99): SEQ before BADLEN (R125), else DATA[0..LEN) is absorbed. -/
def execShaUpdate (len : Nat) (s : State) : Result :=
  .next (complete s (
    if s.mode = .idle then .error .seq
    else if 64 < len then .error .badlen
    else .ok { s with stream := absorb (dataBytes len s) s.stream }))

/-- SHA_FINAL (R100): only in MODE = HASH, so that the inner hash of a keyed stream is never published. -/
def execShaFinal (s : State) : Result :=
  .next (complete s (
    if s.mode ≠ .hash then .error .seq
    else .ok { s with dig := finalDigest s.stream, stream := s.stream.closed, mode := .idle }))

end Sys2Proof.Machine
end

