-- ==== Sys2Proof/Machine/Totp.lean ====
section
/-! DEFINITION. The meanings of SET_TIMESTEP, TOTP_STEPS, TOTP_TIME and TRUNCATE (44_totp.md R114..R117). -/

namespace Sys2Proof.Machine

/-- SET_TIMESTEP (R114): zero is rejected and the old step kept. -/
def execSetTimestep (s : State) : Result :=
  .next (complete s (if s.argLo = 0 then .error .badstep else .ok { s with timestep := s.argLo }))

/-- TOTP_STEPS (R115): the sentinel when no secret is configured; a step count of 0 is hashed normally. -/
def execTotpSteps (s : State) : Result :=
  .next (complete s (.ok (if s.keyLen = 0 then setSentinel s else totpHash s.argLo s)))

/-- TOTP_TIME (R116): the sentinel when no secret is configured or the timestamp is 0. -/
def execTotpTime (s : State) : Result :=
  .next (complete s (.ok (
    if s.keyLen = 0 ∨ timestamp s = 0 then setSentinel s
    else totpHash (stepsOf (timestamp s) s.timestep) s)))

/-- TRUNCATE (R117): the truncation unit alone, on DIGEST, with no key test. -/
def execTruncate (s : State) : Result :=
  .next (complete s (.ok (setCode (truncateMac s.dig) s)))

end Sys2Proof.Machine
end

