-- ==== Sys2Proof/Machine/Dispatch.lean ====
section
/-! DEFINITION. One arm per command (40_interface.md R72): the ENGINE step for a decoded command. -/

namespace Sys2Proof.Machine

def exec (i : Instr) (s : State) : Host.Outcome State Fault Refusal :=
  match i with
  | .nop => Sys2Proof.Machine.execNop s
  | .shaInit => Sys2Proof.Machine.execShaInit s
  | .shaCompress => Sys2Proof.Machine.execShaCompress s
  | .shaUpdate len => Sys2Proof.Machine.execShaUpdate len s
  | .shaFinal => Sys2Proof.Machine.execShaFinal s
  | .setSecret len => Sys2Proof.Machine.execSetSecret len s
  | .hmacInit => Sys2Proof.Machine.execHmacInit s
  | .hmacFinal => Sys2Proof.Machine.execHmacFinal s
  | .setTimestep => Sys2Proof.Machine.execSetTimestep s
  | .totpSteps => Sys2Proof.Machine.execTotpSteps s
  | .totpTime => Sys2Proof.Machine.execTotpTime s
  | .truncate => Sys2Proof.Machine.execTruncate s

end Sys2Proof.Machine
end

