-- ==== Sys2Proof/Machine/Engine.lean ====
section
/-! DEFINITION. The ENGINE's step and the delivery of one bus event (40_interface.md R69..R72; 20_memory.md R52). -/

namespace Sys2Proof.Machine

/-- `execute(CMDW)` and the completion (R69, R72): an illegal word completes with BADOP and "changes no other state" (R63). -/
def completeCommand (s : State) : Result :=
  match decode s.cmdw with
  | .ok i => exec i s
  | .error _ => .next (complete s (.error .badop))

/-- ENGINE's turn. Its one step "is enabled if and only if BUSY = 1" (R69); while `rst` is asserted there is no command
in flight (R137). A turn with nothing to do changes nothing (log 3). -/
def engineTurn (s : State) : Result :=
  if s.busy && !s.rst then completeCommand s else .next s

/-- One entry of the total order of R52 is performed. -/
def deliver (e : BusEvent) (s : State) : Result :=
  match e with
  | .read addr width => busRead addr width s
  | .write addr width v => busWrite addr width v s
  | .engine => engineTurn s
  | .assertRst => .next (assertReset s)
  | .releaseRst => .next (releaseReset s)

/-- The machine's step: the first entry of the agenda happens. When the agenda is used up, HOST does nothing more and ENGINE
has its turn, so that every accepted command completes (R71; log 2). -/
def nextEvent (s : State) : Result :=
  match s.agenda with
  | [] => engineTurn s
  | e :: rest => deliver e { s with agenda := rest }

/-- The state in which the command word `w` has been accepted and ENGINE's turn comes next (R68, R69; log 4). -/
def commandInFlight (w : Word) (s : State) : State :=
  { accept w s with rst := false, agenda := .engine :: s.agenda }

end Sys2Proof.Machine
end

