-- ==== Sys2Proof/Machine/Step.lean ====
section
/-! DEFINITION. The step of the machine, and how the host places one command word before it. -/

namespace Sys2Proof.Machine

/-- One step: the first entry of the agenda, or ENGINE's turn when there is none. -/
def step (s : State) : Host.Outcome State Fault Refusal := nextEvent s

/-- `s` with the opcode-table word accepted and the ENGINE's completion next, so that the very next step runs it. The
block fetches nothing (R23): a command arrives as a write to CMD, and this stands for that write (log 4). -/
def State.withFetchWord (s : State) (nbits w : Nat) : State := commandInFlight (tableWord nbits w) s

end Sys2Proof.Machine
end

