-- ==== Sys2Proof/Machine/Reference.lean ====
section
/-! DEFINITION. The one-shot functions the block must agree with, written on whole messages and without the stream
registers: SHA-1 by padding the message and compressing its blocks (42_hasher.md R94, R95), HMAC by its formula
(43_hmac.md R103), and the TOTP code (44_totp.md R109, R112). No command calls them; statements are made in terms of them. -/

namespace Sys2Proof.Machine.Reference

/-- The number of zero bytes between the 0x80 byte and the length field: the fewest that make whole blocks (R95). -/
def paddingZeros (n : Nat) : Nat := (119 - n % 64) % 64

/-- The padded message: 0x80, zeros, and the bit length mod 2^64 in 8 bytes, big-endian (R92, R95, R97). -/
def paddedMessage (M : List Byte) : List Byte :=
  M ++ [0x80] ++ zeros (paddingZeros M.length) ++ bytesOfDWord (BitVec.ofNat 64 (8 * M.length))

/-- The 64-byte blocks of a sequence of whole blocks. -/
def blocksOf (S : List Byte) : List (Vector Byte 64) :=
  (List.range (S.length / 64)).map fun n => padTo 64 (S.drop (64 * n))

/-- SHA-1 of a whole message: its padded blocks compressed in order from the initial value (R79, R90, R95). -/
def sha1 (M : List Byte) : Vector Byte 20 :=
  serialize ((blocksOf (paddedMessage M)).foldl compress initialValue)

/-- `HMAC(K, M) = SHA1((K0(K) ^ OPAD) ‖ SHA1((K0(K) ^ IPAD) ‖ M))`, with K0 by R101 (R103). -/
def hmac (K M : List Byte) : Vector Byte 20 :=
  let K0 := if 64 < K.length then (sha1 K).toList ++ zeros 44 else K ++ zeros (64 - K.length)
  sha1 (K0.map (· ^^^ 0x5c) ++ (sha1 (K0.map (· ^^^ 0x36) ++ M)).toList)

/-- The value v of dynamic truncation, as the number its four bytes spell, the top bit dropped (R109). -/
def truncationValue (mac : Vector Byte 20) : Nat :=
  let o := mac[19].toNat % 16
  ((byteAt mac.toList o).toNat % 128) * 2 ^ 24 + (byteAt mac.toList (o + 1)).toNat * 2 ^ 16 +
    (byteAt mac.toList (o + 2)).toNat * 2 ^ 8 + (byteAt mac.toList (o + 3)).toNat

/-- The 6-digit code of a secret and a step counter (R109, R112). -/
def totpCode (K : List Byte) (steps : Word) : Nat :=
  truncationValue (hmac K (zeros 4 ++ bytesOfWord steps)) % 1000000

/-- The "fixed-width 6-digit zero-padded decimal string" of a code, as characters (R29). -/
def sixDigits (c : Nat) : List Char :=
  [5, 4, 3, 2, 1, 0].map fun p => Nat.digitChar (c / 10 ^ p % 10)

end Sys2Proof.Machine.Reference
end

