-- ==== Sys2Proof/Machine/HostProgram.lean ====
section
/-! DEFINITION. The host-program notation (30_encoding.md R65) as bus events: what a host program puts on the agenda. -/

namespace Sys2Proof.Machine

/-- The offset a register name stands for (R16, R65); `reserved` stands for the first reserved offset (R50). -/
def offsetOfReg : Reg → Nat
  | .id => 0x000
  | .version => 0x004
  | .ctrl => 0x008
  | .status => 0x00C
  | .cmd => 0x010
  | .argLo => 0x014
  | .argHi => 0x018
  | .timestep => 0x01C
  | .keyLen => 0x020
  | .fill => 0x024
  | .mlenLo => 0x028
  | .mlenHi => 0x02C
  | .code => 0x030
  | .codeAscii0 => 0x034
  | .codeAscii1 => 0x038
  | .steps => 0x03C
  | .h k => 0x040 + 4 * k.val
  | .digest k => 0x060 + 4 * k.val
  | .data k => 0x080 + 4 * k.val
  | .reserved => 0x054

/-- `wr REG, v`: a write at `BASE + offset` (R65, R76). -/
def wr (r : Reg) (v : Word) : BusEvent := .write (Config.base + offsetOfReg r) .bits32 v

/-- `rd REG` (R65, R76). -/
def rd (r : Reg) : BusEvent := .read (Config.base + offsetOfReg r) .bits32

/-- `cmd MNEMONIC [LEN]` (R65). -/
def cmd (i : Instr) : BusEvent := wr .cmd (encode i)

/-- `wait` (R65), for a completion that comes after `polls` reads of STATUS: those reads, the completion, and the read
that sees BUSY = 0. Every number of polls is a run of the block (R71). -/
def wait (polls : Nat) : List BusEvent := List.replicate polls (rd .status) ++ [.engine, rd .status]

/-- `run MNEMONIC [LEN]`: `cmd` then `wait` (R65). -/
def run (polls : Nat) (i : Instr) : List BusEvent := cmd i :: wait polls

/-- `ldd`: the bytes packed into DATA0.., the last word filled up with zero bytes (R65, R42). R65 does not say what `ldd` of more
than 64 bytes is; here the bytes beyond the sixteen DATA registers are not written (DESIGN CHOICE, log 25). -/
def ldd (S : List Byte) : List BusEvent :=
  ((List.finRange 16).filter fun k => 4 * k.val < S.length).map fun k => wr (.data k) (be32 S (4 * k.val))

/-- `ld64 ARG_HI:ARG_LO, v`: the low word first (R65). -/
def ld64 (v : DWord) : List BusEvent :=
  [wr .argLo (v.extractLsb' 0 32), wr .argHi (v.extractLsb' 32 32)]

end Sys2Proof.Machine
end

