-- ==== Sys2Proof/Machine/Verifier.lean ====
section
/-! DEFINITION. The host-side verifier (44_totp.md R120): not a command of the block, but a procedure HOST carries out with
TOTP_TIME, specified so "that a model can still check it" (00_scope.md R5(g)). -/

namespace Sys2Proof.Machine

/-- The digits D1..D6 as HOST reads them from CODE_ASCII0 and CODE_ASCII1 (R29, R120). -/
def codeDigits (s : State) : List Char :=
  (bytesOfWord (hostRead .codeAscii0 s) ++ (bytesOfWord (hostRead .codeAscii1 s)).take 2).map
    fun x => Char.ofNat x.toNat

/-- `ld64 ARG_HI:ARG_LO, tt; run TOTP_TIME` (R120), the completion right after the acceptance (log 17). -/
def runTotpTime (tt : DWord) (s : State) : Result :=
  engineTurn (hostWrite .cmd (encode .totpTime)
    (hostWrite .argHi (tt.extractLsb' 32 32) (hostWrite .argLo (tt.extractLsb' 0 32) s)))

/-- The test timestamps `T + off * TIMESTEP` for off = -w, ..., +w in ascending order, in exact integers; none when w < 0
(R120). -/
def testTimestamps (T w : Int) (timestep : Nat) : List Int :=
  (List.range (2 * w + 1).toNat).map fun n => T + ((n : Int) - w) * (timestep : Int)

/-- The loop of `verify` (R120). A test timestamp of 2^64 or more must not be formed and is refused (U19). -/
def tryTimestamps (cand : List Char) : List Int → State → Host.Outcome (Bool × State) Fault Refusal
  | [], s => .next (false, s)
  | tt :: rest, s =>
    if tt ≤ 0 then tryTimestamps cand rest s
    else if 2 ^ 64 ≤ tt then .refused .timestampTooWide
    else match runTotpTime (BitVec.ofInt 64 tt) s with
      | .next s' => if codeDigits s' = cand then .next (true, s') else tryTimestamps cand rest s'
      | .fault r => .fault r
      | .refused r => .refused r

/-- `verify(cand, T, w)` (R120), and the state it leaves. TIMESTEP is read once, before the loop, which the rule leaves open: it
matters only when a SET_TIMESTEP is still in flight at the call (DESIGN CHOICE, log 17). -/
def verify (cand : List Char) (T w : Int) (s : State) : Host.Outcome (Bool × State) Fault Refusal :=
  if s.rst then .refused .accessDuringReset
  else if keySet s = false ∨ cand.length ≠ 6 then .next (false, s)
  else tryTimestamps cand (testTimestamps T w (hostRead .timestep s).toNat) s

end Sys2Proof.Machine
end

