-- ==== Sys2Proof/Safety.lean ====
section
/-! DEFINITION. The terms in which statements about the machine are made: the invariant of every run, how commands are
put one after the other, and what HOST can see. -/

namespace Sys2Proof.Machine

/-- What holds of the block at every instant, by the rules of 10_state.md. -/
structure BlockInvariant (s : State) : Prop where
  /-- "Its value is never 0" (R24). -/
  timestep_ne_zero : s.timestep ≠ 0
  /-- "Bytes KEY[KEYLEN..31] are always 0x00" (R35). -/
  key_tail_zero : s.key.toList.drop s.keyLen.val = zeros (32 - s.keyLen.val)
  /-- CODE is in 0..999999 (R28). -/
  code_range : s.code.toNat < 1000000
  /-- CODE_ASCII0 and CODE_ASCII1 hold the digits of CODE (R29). -/
  code_ascii : s.codeAscii0 = asciiHigh s.code.toNat ∧ s.codeAscii1 = asciiLow s.code.toNat
  /-- VALID = 0: CODE holds the sentinel (R20). -/
  sentinel_code : s.valid = false → s.code = 0
  /-- FILL counts the message bytes not yet compressed (R26, R27, R91). -/
  fill_mlen : s.stream.fill.val = s.stream.mlen.toNat % 64
  /-- No stream is open: the stream's counters and buffer are clear (R36, R93). -/
  idle_stream : s.mode = .idle → s.stream.mlen = 0 ∧ s.stream.pbuf = zeroBytes 64
  /-- KPAD holds a key only while a keyed stream is open (R37). -/
  kpad_cleared : s.mode ≠ .hmac → s.kpad = zeroBytes 64
  /-- K0 of a secret of at most 32 bytes ends in zeros (R101, R105). -/
  kpad_tail : s.kpad.toList.drop 32 = zeros 32
  /-- A keyed stream is open only after a secret was configured (R107). -/
  keyed_stream : s.mode = .hmac → s.keyLen ≠ 0
  /-- Acceptance clears DONE and completion clears BUSY (R68, R69). -/
  busy_not_done : s.busy = true → s.done = false
  /-- While `rst` is asserted every element holds its reset value (R137). -/
  reset_held : s.rst = true → s = resetBlock true s

/-- One result, then what follows from its state; a stop stays a stop. -/
def andThen (r : Result) (f : State → Result) : Result :=
  match r with
  | .next s => f s
  | .fault e => .fault e
  | .refused e => .refused e

/-- A message sent in chunks: for each, HOST fills DATA and SHA_UPDATE absorbs the first `len` bytes (R99, R104). -/
def feedChunks : List (Vector Byte 64 × Nat) → State → Result
  | [], s => .next s
  | (buffer, len) :: rest, s => andThen (exec (.shaUpdate len) { s with data := buffer }) (feedChunks rest)

/-- The message a list of chunks spells. -/
def chunkedMessage (chunks : List (Vector Byte 64 × Nat)) : List Byte :=
  chunks.flatMap fun c => c.1.toList.take c.2

/-- Every chunk has a length SHA_UPDATE accepts (R99). -/
def legalChunks (chunks : List (Vector Byte 64 × Nat)) : Bool := chunks.all fun c => decide (c.2 ≤ 64)

/-- ENGINE's turn comes next: it is the first entry of the agenda, or the agenda is used up. -/
def engineNext (s : State) : Prop := s.agenda = [] ∨ ∃ rest, s.agenda = .engine :: rest

/-- The state once the first entry of the agenda is taken. -/
def taken (s : State) : State := { s with agenda := s.agenda.tail }

/-- Two states that differ at most in the hidden registers KEY, KPAD, PBUF and CMDW (R35..R38), KEYLEN being visible. -/
def sameButHidden (s t : State) : Prop :=
  t = { s with key := t.key, kpad := t.kpad, cmdw := t.cmdw, stream := { s.stream with pbuf := t.stream.pbuf } }

/-- A word that matches no row of R62, in R63's own three cases: OP is not one of the twelve values, RSV is not 0, or LEN is
not 0 for an opcode that takes no LEN. -/
def illegalWord (w : Word) : Prop :=
  w.toNat % 256 ∉ [0x00, 0x01, 0x02, 0x03, 0x04, 0x10, 0x11, 0x12, 0x20, 0x21, 0x22, 0x23] ∨
    w.toNat / 2 ^ 15 ≠ 0 ∨
    (w.toNat / 256 % 128 ≠ 0 ∧ w.toNat % 256 ∉ [0x03, 0x10])

/-- `W` is the message schedule of the block (R80). -/
def isSchedule (block : Vector Byte 64) (W : Nat → Word) : Prop :=
  (∀ j < 16, W j = be32 block.toList (4 * j)) ∧
    ∀ i < 80, 16 ≤ i → W i = rotl (W (i - 3) ^^^ W (i - 8) ^^^ W (i - 14) ^^^ W (i - 16)) 1

/-- `v t` are the working variables before round t, from `h`, with the schedule `W` (R81, R82, R83). -/
def isRoundTrace (h : Vector Word 5) (W : Nat → Word) (v : Nat → Working) : Prop :=
  v 0 = ⟨h[0], h[1], h[2], h[3], h[4]⟩ ∧
    ∀ t < 80,
      (v (t + 1)).e = (v t).d ∧ (v (t + 1)).d = (v t).c ∧ (v (t + 1)).c = rotl (v t).b 30 ∧ (v (t + 1)).b = (v t).a ∧
      (t ≤ 19 → (v (t + 1)).a =
        rotl (v t).a 5 + (((v t).b &&& (v t).c) ||| (~~~(v t).b &&& (v t).d)) + (v t).e + 0x5A827999 + W t) ∧
      (20 ≤ t → t ≤ 39 → (v (t + 1)).a =
        rotl (v t).a 5 + ((v t).b ^^^ (v t).c ^^^ (v t).d) + (v t).e + 0x6ED9EBA1 + W t) ∧
      (40 ≤ t → t ≤ 59 → (v (t + 1)).a =
        rotl (v t).a 5 + (((v t).b &&& (v t).c) ||| ((v t).b &&& (v t).d) ||| ((v t).c &&& (v t).d)) + (v t).e +
          0x8F1BBCDC + W t) ∧
      (60 ≤ t → (v (t + 1)).a =
        rotl (v t).a 5 + ((v t).b ^^^ (v t).c ^^^ (v t).d) + (v t).e + 0xCA62C1D6 + W t)

/-- A bit as a number. -/
def bitValue (b : Bool) : Nat := if b then 1 else 0

/-- `ERR << 8 | MODE << 5 | VALID << 4 | KEYSET << 3 | OVR << 2 | DONE << 1 | BUSY` (R66), as a number. -/
def statusValue (s : State) : Nat :=
  s.err.bits.toNat * 256 + s.mode.bits.toNat * 32 + bitValue s.valid * 16 + bitValue (decide (0 < s.keyLen.val)) * 8 +
    bitValue s.ovr * 4 + bitValue s.done * 2 + bitValue s.busy

/-- What a read of the window returns, offset by offset, as R66 and R16 list it. -/
def windowValue (s : State) (off : Nat) : Word :=
  if off = 0x000 then 0x53484131
  else if off = 0x004 then 0x00010000
  else if off = 0x008 then BitVec.ofNat 32 (bitValue s.ie)
  else if off = 0x00C then BitVec.ofNat 32 (statusValue s)
  else if off = 0x014 then s.argLo
  else if off = 0x018 then s.argHi
  else if off = 0x01C then s.timestep
  else if off = 0x020 then BitVec.ofNat 32 s.keyLen.val
  else if off = 0x024 then BitVec.ofNat 32 s.stream.fill.val
  else if off = 0x028 then BitVec.ofNat 32 (s.stream.mlen.toNat % 2 ^ 32)
  else if off = 0x02C then BitVec.ofNat 32 (s.stream.mlen.toNat / 2 ^ 32)
  else if off = 0x030 then s.code
  else if off = 0x034 then s.codeAscii0
  else if off = 0x038 then s.codeAscii1
  else if off = 0x03C then s.steps
  else if 0x040 ≤ off ∧ off ≤ 0x050 then s.stream.h.toList.getD ((off - 0x040) / 4) 0
  else if 0x060 ≤ off ∧ off ≤ 0x070 then be32 s.dig.toList (off - 0x060)
  else if 0x080 ≤ off ∧ off ≤ 0x0BC then be32 s.data.toList (off - 0x080)
  else 0

/-- The offsets of the guarded registers CMD, ARG_LO, ARG_HI, H0..H4 and DATA0..15 (R16, R68). -/
def guardedOffset (off : Nat) : Prop :=
  off = 0x010 ∨ off = 0x014 ∨ off = 0x018 ∨ (0x040 ≤ off ∧ off ≤ 0x050) ∨ (0x080 ≤ off ∧ off ≤ 0x0BC)

/-- `t` is what a write of `v` at offset `off` makes of `s`, case by case as R67 lists them. -/
def windowWrite (off : Nat) (v : Word) (s t : State) : Prop :=
  (off = 0x008 → t = { s with ie := v.getLsbD 0 }) ∧
  (off = 0x00C → t = { s with
    done := if v.getLsbD 1 then false else s.done
    ovr := if v.getLsbD 2 then false else s.ovr }) ∧
  (guardedOffset off → s.busy = true → t = { s with ovr := true }) ∧
  (s.busy = false →
    (off = 0x010 → t = { s with cmdw := v, busy := true, done := false }) ∧
    (off = 0x014 → t = { s with argLo := v }) ∧
    (off = 0x018 → t = { s with argHi := v }) ∧
    (0x040 ≤ off ∧ off ≤ 0x050 →
      t = { s with stream := { s.stream with h := s.stream.h.setIfInBounds ((off - 0x040) / 4) v } }) ∧
    (0x080 ≤ off ∧ off ≤ 0x0BC →
      t.data.toList =
        s.data.toList.take (off - 0x080) ++ bytesOfWord v ++ s.data.toList.drop (off - 0x080 + 4) ∧
      t = { s with data := t.data })) ∧
  (¬ guardedOffset off → off ≠ 0x008 → off ≠ 0x00C → t = s)

end Sys2Proof.Machine
end

