-- ==== Sys2Proof/Certificates/Slice0/Obligations.lean ====
section
/-! DEFINITION. The statements for the provers. `taken s` is `s` with the first entry of its agenda taken; a command's
result is stated as the whole next state, so that every register not named in it is unchanged. -/

open Sys2Proof Sys2Proof.Machine

/-! ### Encoding -/

/-- Command words written out from R57, R62 and R65's examples decode to the commands they stand for. -/
def Obligations.TableWordsDecodeToTheirCommands : Prop :=
  decode 0x00000000 = .ok .nop ∧ decode 0x00000001 = .ok .shaInit ∧ decode 0x00000002 = .ok .shaCompress ∧
  decode 0x00002B03 = .ok (.shaUpdate 43) ∧ decode 0x00007F03 = .ok (.shaUpdate 127) ∧
  decode 0x00000004 = .ok .shaFinal ∧ decode 0x00001410 = .ok (.setSecret 20) ∧ decode 0x00000010 = .ok (.setSecret 0) ∧
  decode 0x00000011 = .ok .hmacInit ∧ decode 0x00000012 = .ok .hmacFinal ∧ decode 0x00000020 = .ok .setTimestep ∧
  decode 0x00000021 = .ok .totpSteps ∧ decode 0x00000022 = .ok .totpTime ∧ decode 0x00000023 = .ok .truncate

/-- R62: a word decodes exactly when a row of the table accepts it, to that row's command with LEN its bits 14:8, and no
word is accepted by two rows. -/
def Obligations.DecodingFollowsTheMatchAndMaskRows : Prop :=
  ∀ w : Word,
    (∀ r ∈ opcodeRows, r.accepts w = true →
      ∃ i, decode w = .ok i ∧ mnemonicOf i = r.mnemonic ∧ lenOf i = w.toNat / 256 % 128) ∧
    (∀ i, decode w = .ok i → ∃ r ∈ opcodeRows, r.mnemonic = mnemonicOf i ∧ r.accepts w = true) ∧
    (∀ r ∈ opcodeRows, ∀ r' ∈ opcodeRows, r.accepts w = true → r'.accepts w = true → r = r')

/-- R63: the words that decode to no command are exactly those of its three cases; such a word is accepted like any other,
and its completion writes ERR = BADOP and changes no other state. -/
def Obligations.IllegalWordsCompleteWithBadop : Prop :=
  (∀ w : Word, (∀ i, decode w ≠ .ok i) ↔ illegalWord w) ∧
  (∀ (w : Word) (s : State), s.busy = false →
    hostWrite .cmd w s = { s with cmdw := w, busy := true, done := false }) ∧
  (∀ s : State, s.busy = true → s.rst = false → engineNext s → illegalWord s.cmdw →
    step s = .next { s with agenda := s.agenda.tail, err := .badop, busy := false, done := true })

/-- Decode and encode agree on every well-formed command, LEN at every value its field admits (R57, R59, R62). -/
def Obligations.DecodeOfEncodeIsTheCommand : Prop :=
  ∀ i : Instr, i.wellFormed = true → decode (encode i) = .ok i

/-- The other direction: a word that decodes is the word of the command it decodes to, and that command is well formed. -/
def Obligations.EncodeOfDecodeIsTheWord : Prop :=
  ∀ (w : Word) (i : Instr), decode w = .ok i → encode i = w ∧ i.wellFormed = true

/-! ### The step and the life of a command -/

/-- When ENGINE's turn comes next and CMDW decodes to a command, the step is that command's meaning; and a command word placed
by `withFetchWord` is the one the very next step runs. -/
def Obligations.StepRunsTheDecodedCommand : Prop :=
  (∀ (s : State) (i : Instr), s.busy = true → s.rst = false → engineNext s → decode s.cmdw = .ok i →
    step s = exec i (taken s)) ∧
  (∀ (s : State) (nbits w : Nat) (i : Instr), decodeTableWord nbits w = some i →
    step (s.withFetchWord nbits w) =
      exec i { s with cmdw := tableWord nbits w, busy := true, done := false, rst := false })

/-- R69: the ENGINE step is enabled exactly when BUSY = 1, and it completes the command in one step: ERR written, BUSY
cleared, DONE set, and nothing else written when ERR is not OK. (While `rst` is asserted no command is in flight, R137.) That a turn
of ENGINE with BUSY = 0 is a step to the same state, the turn taken, is the model's form of "not enabled" (log 3). -/
def Obligations.EngineCompletesExactlyWhenBusy : Prop :=
  (∀ s : State, s.busy = false → engineNext s → step s = .next (taken s)) ∧
  (∀ s : State, s.busy = true → s.rst = false → engineNext s →
    ∃ t : State, step s = .next t ∧ t.busy = false ∧ t.done = true ∧ t.agenda = s.agenda.tail ∧
      (t.err ≠ .ok → t = { taken s with err := t.err, busy := false, done := true }) ∧
      ((∀ i, decode s.cmdw ≠ .ok i) → t.err = .badop) ∧
      (∀ i, decode s.cmdw = .ok i → exec i (taken s) = .next t))

/-- R122, R125: every command completes, with the one ERR code its table row and the priority order give for every MODE,
LEN, KEYLEN and ARG_LO; a word that is no command gives BADOP before anything else is tested; and with ERR ≠ OK nothing but
BUSY, DONE and ERR has changed. -/
def Obligations.ErrCodeOfEveryCommand : Prop :=
  (ErrCode.ok.bits = 0 ∧ ErrCode.badop.bits = 1 ∧ ErrCode.seq.bits = 2 ∧ ErrCode.badlen.bits = 3 ∧
    ErrCode.nokey.bits = 4 ∧ ErrCode.badstep.bits = 5) ∧
  (∀ (i : Instr) (s : State), ∃ t : State, exec i s = .next t ∧
    (t.err ≠ .ok → t = { s with err := t.err, busy := false, done := true }) ∧
    t.err = match i with
      | .shaUpdate len => if s.mode = .idle then .seq else if 64 < len then .badlen else .ok
      | .shaFinal => if s.mode = .hash then .ok else .seq
      | .hmacFinal => if s.mode = .hmac then .ok else .seq
      | .setSecret len => if len = 0 ∨ 32 < len then .badlen else .ok
      | .hmacInit => if s.keyLen = 0 then .nokey else .ok
      | .setTimestep => if s.argLo = 0 then .badstep else .ok
      | _ => .ok) ∧
  (∀ s : State, (∀ i, decode s.cmdw ≠ .ok i) →
    completeCommand s = .next { s with err := .badop, busy := false, done := true })

/-- R61, R75: a command leaves every register its row does not list as it was. -/
def Obligations.CommandsKeepWhatTheirRowDoesNotList : Prop :=
  ∀ (i : Instr) (s t : State), exec i s = .next t →
    (t.ie = s.ie ∧ t.ovr = s.ovr ∧ t.cmdw = s.cmdw ∧ t.argLo = s.argLo ∧ t.argHi = s.argHi ∧ t.rst = s.rst ∧
      t.agenda = s.agenda ∧ t.rdata = s.rdata) ∧
    ((∀ len, i ≠ .setSecret len) → t.key = s.key ∧ t.keyLen = s.keyLen ∧ t.data = s.data) ∧
    (i ≠ .setTimestep → t.timestep = s.timestep) ∧
    (i ∉ [.shaFinal, .hmacFinal, .totpSteps, .totpTime] → t.dig = s.dig) ∧
    (i ∉ [.totpSteps, .totpTime, .truncate] →
      t.code = s.code ∧ t.codeAscii0 = s.codeAscii0 ∧ t.codeAscii1 = s.codeAscii1 ∧ t.valid = s.valid) ∧
    (i ∉ [.totpSteps, .totpTime] → t.steps = s.steps) ∧
    (i ∉ [.shaInit, .shaFinal, .hmacInit, .hmacFinal, .totpSteps, .totpTime] → t.mode = s.mode) ∧
    (i ∉ [.shaInit, .hmacInit, .hmacFinal, .totpSteps, .totpTime] → t.kpad = s.kpad) ∧
    (i ∈ [.nop, .setTimestep, .truncate] ∨ (∃ len, i = .setSecret len) → t.stream = s.stream) ∧
    (i = .shaCompress → t.stream = { s.stream with h := t.stream.h })

/-- R35, R25, R138: over all steps, KEY and KEYLEN change only in the completion of a SET_SECRET or at an edge of `rst`, and
only an edge of `rst` returns KEYLEN to 0. -/
def Obligations.OnlySetSecretOrResetChangesTheSecret : Prop :=
  ∀ s t : State, step s = .next t → (t.key ≠ s.key ∨ t.keyLen ≠ s.keyLen) →
    (∃ rest, s.agenda = .assertRst :: rest ∨ s.agenda = .releaseRst :: rest) ∨
    (engineNext s ∧ s.busy = true ∧ t.keyLen ≠ 0 ∧ ∃ len, decode s.cmdw = .ok (.setSecret len))

/-! ### NOP and the SHA-1 commands -/

/-- R77: NOP is the word 0, and writes only ERR = 0, BUSY = 0 and DONE = 1; OP 0x00 with anything else in the word is BADOP. -/
def Obligations.NopOnlyCompletes : Prop :=
  (∀ w : Word, decode w = .ok .nop ↔ w = 0) ∧
  (∀ s : State, exec .nop s = .next { s with err := .ok, busy := false, done := true }) ∧
  (∀ (w : Word) (s : State), opField w = 0 → w ≠ 0 →
    completeCommand { s with cmdw := w } = .next { s with cmdw := w, err := .badop, busy := false, done := true }) ∧
  (∀ t : State, exec .nop State.reset = .next t → statusWord t = 0x00000002)

/-- R98: SHA_INIT, from every state and in every MODE; STATUS after it from reset. -/
def Obligations.ShaInitStartsAPlainStream : Prop :=
  (∀ t : State, exec .shaInit State.reset = .next t → statusWord t = 0x00000022) ∧
  ∀ s : State, exec .shaInit s = .next { s with
    stream := { h := #v[0x67452301, 0xEFCDAB89, 0x98BADCFE, 0x10325476, 0xC3D2E1F0]
                mlen := 0
                fill := 0
                pbuf := Vector.replicate 64 0 }
    kpad := Vector.replicate 64 0
    mode := .hash
    err := .ok
    busy := false
    done := true }

/-- R80, R81, R82, R83, R84: for every chaining state and block, whatever words satisfy the schedule recurrence and whatever
working variables satisfy the round step, `compress` is the chaining state plus the variables after round 79. -/
def Obligations.CompressionFollowsScheduleAndRounds : Prop :=
  ∀ (h : Vector Word 5) (block : Vector Byte 64) (W : Nat → Word) (v : Nat → Working),
    isSchedule block W → isRoundTrace h W v →
    compress h block =
      #v[h[0] + (v 80).a, h[1] + (v 80).b, h[2] + (v 80).c, h[3] + (v 80).d, h[4] + (v 80).e]

/-- R86: the other forms of choose and majority give the same round function. -/
def Obligations.ChooseAndMajorityHaveTheirOtherForms : Prop :=
  ∀ (t : Nat) (b c d : Word),
    (t < 20 → roundFunction t b c d = (b &&& c) ^^^ (~~~b &&& d)) ∧
    (40 ≤ t → t < 60 → roundFunction t b c d = (b &&& c) ^^^ (b &&& d) ^^^ (c &&& d) ∧
      roundFunction t b c d = (b &&& c) ||| (d &&& (b ||| c)))

/-- SHA_COMPRESS (R89) in every MODE: H becomes the compression of H and DATA, and nothing else changes but the completion. -/
def Obligations.ShaCompressCompressesDataIntoH : Prop :=
  ∀ s : State, exec .shaCompress s = .next { s with
    stream := { s.stream with h := compress s.stream.h s.data }
    err := .ok
    busy := false
    done := true }

/-- R91: one byte of `absorb`, in every state of the stream; a sequence is absorbed in order; and so, from every partial block,
the full 64-byte blocks of the waiting bytes and the new ones are compressed in order and the rest waits in PBUF. Of PBUF only the
bytes below the new FILL are stated: R36 leaves the others at any value. -/
def Obligations.AbsorbCompressesEveryFullBlock : Prop :=
  (∀ (x : Byte) (st : HashStream),
    (absorb [x] st).mlen = st.mlen + 1 ∧
    (st.fill.val < 63 → (absorb [x] st).fill.val = st.fill.val + 1 ∧ (absorb [x] st).h = st.h ∧
      (absorb [x] st).pbuf.toList.take (st.fill.val + 1) = st.pbuf.toList.take st.fill.val ++ [x]) ∧
    (st.fill.val = 63 → (absorb [x] st).fill.val = 0 ∧
      ∀ block : Vector Byte 64, block.toList = st.pbuf.toList.take 63 ++ [x] →
        (absorb [x] st).h = compress st.h block)) ∧
  (∀ (S T : List Byte) (st : HashStream), absorb (S ++ T) st = absorb T (absorb S st)) ∧
  (∀ (S : List Byte) (st : HashStream),
    let waiting := st.pbuf.toList.take st.fill.val ++ S
    (absorb S st).h = (Reference.blocksOf waiting).foldl compress st.h ∧
    (absorb S st).fill.val = waiting.length % 64 ∧
    (absorb S st).pbuf.toList.take (waiting.length % 64) = waiting.drop (64 * (waiting.length / 64)) ∧
    (absorb S st).mlen = st.mlen + BitVec.ofNat 64 S.length)

/-- SHA_UPDATE (R99, R125), all three outcomes: SEQ without an open stream, BADLEN above 64, else the first LEN bytes of DATA
are absorbed; FILL and MLEN count them. -/
def Obligations.ShaUpdateAbsorbsTheFirstLenBytes : Prop :=
  ∀ (len : Nat) (s : State),
    (s.mode = .idle →
      exec (.shaUpdate len) s = .next { s with err := .seq, busy := false, done := true }) ∧
    (s.mode ≠ .idle → 64 < len →
      exec (.shaUpdate len) s = .next { s with err := .badlen, busy := false, done := true }) ∧
    (s.mode ≠ .idle → len ≤ 64 →
      ∃ t : State, exec (.shaUpdate len) s = .next t ∧
        t = { s with
          stream := absorb (s.data.toList.take len) s.stream
          err := .ok
          busy := false
          done := true } ∧
        t.stream.fill.val = (s.stream.fill.val + len) % 64 ∧
        t.stream.mlen = s.stream.mlen + BitVec.ofNat 64 len ∧
        (s.stream.fill.val + len < 64 → t.stream.h = s.stream.h))

/-- R95: the padding layout, one block for FILL = 0..55 and two for 56..63, for every chaining state, buffer and count. -/
def Obligations.FinalizationPadsAsTheLayoutTable : Prop :=
  ∀ st : HashStream,
    let r := st.fill.val
    let length := bytesOfDWord (BitVec.ofNat 64 (8 * st.mlen.toNat))
    (r ≤ 55 → ∀ last : Vector Byte 64,
      last.toList = st.pbuf.toList.take r ++ [0x80] ++ List.replicate (55 - r) 0 ++ length →
      finalState st = compress st.h last) ∧
    (56 ≤ r → ∀ first last : Vector Byte 64,
      first.toList = st.pbuf.toList.take r ++ [0x80] ++ List.replicate (63 - r) 0 →
      last.toList = List.replicate 56 0 ++ length →
      finalState st = compress (compress st.h first) last)

/-- SHA_FINAL (R100, R93): SEQ unless MODE = HASH; else DIG is the digest, H the final chaining state with DIGESTk = Hk, and the
stream is closed. -/
def Obligations.ShaFinalPublishesTheDigest : Prop :=
  ∀ s : State,
    (s.mode ≠ .hash →
      exec .shaFinal s = .next { s with err := .seq, busy := false, done := true }) ∧
    (s.mode = .hash →
      ∃ t : State, exec .shaFinal s = .next t ∧
        t = { s with
          dig := finalDigest s.stream
          stream := { h := finalState s.stream, mlen := 0, fill := 0, pbuf := Vector.replicate 64 0 }
          mode := .idle
          err := .ok
          busy := false
          done := true } ∧
        ∀ k : Fin 5, hostRead (.digest k) t = hostRead (.h k) t)

/-- R94: SHA_INIT, SHA_UPDATE commands and SHA_FINAL give the SHA-1 of the message the chunks spell, from every state and for
every way to cut the message into chunks of 0..64 bytes; DATA holds the last chunk and MODE is IDLE. -/
def Obligations.StreamedDigestDoesNotDependOnTheSplit : Prop :=
  ∀ (s : State) (chunks : List (Vector Byte 64 × Nat)), legalChunks chunks = true →
    ∃ t : State,
      andThen (andThen (exec .shaInit s) (feedChunks chunks)) (exec .shaFinal) = .next t ∧
      t.dig = sha1 (chunkedMessage chunks) ∧ t.err = .ok ∧ t.mode = .idle ∧ t.stream.mlen = 0 ∧ t.stream.fill = 0 ∧
      t.key = s.key ∧ t.keyLen = s.keyLen ∧ t.timestep = s.timestep ∧ t.code = s.code ∧ t.steps = s.steps

/-- The streaming SHA-1 of the block is SHA-1 of the whole message: pad (0x80, zeros, 64-bit big-endian bit length), cut
into 64-byte blocks, compress them in order from the initial value (R79, R90..R95). For every message. -/
def Obligations.StreamingSha1IsOneShotSha1 : Prop :=
  ∀ M : List Byte, sha1 M = Reference.sha1 M

/-- R96: the zero-length message: one final block, 0x80 and 63 zero bytes; and its digest through the commands, from every state. -/
def Obligations.EmptyMessageDigest : Prop :=
  (∀ block : Vector Byte 64, block.toList = [0x80] ++ List.replicate 63 0 →
    finalState HashStream.start = compress initialValue block) ∧
  ∀ s : State, ∃ t : State, andThen (exec .shaInit s) (exec .shaFinal) = .next t ∧
    t.dig.toList = [0xda, 0x39, 0xa3, 0xee, 0x5e, 0x6b, 0x4b, 0x0d, 0x32, 0x55,
                    0xbf, 0xef, 0x95, 0x60, 0x18, 0x90, 0xaf, 0xd8, 0x07, 0x09]

/-! ### The secret and HMAC -/

/-- R105: SET_SECRET. BADLEN for 0 and above 32 with everything kept; else KEY is the first LEN bytes of DATA followed by
zeros, KEYLEN = LEN, and DATA is cleared. -/
def Obligations.SetSecretOverwritesTheKeyAndClearsData : Prop :=
  ∀ (len : Nat) (s : State),
    (len = 0 ∨ 32 < len →
      exec (.setSecret len) s = .next { s with err := .badlen, busy := false, done := true }) ∧
    (1 ≤ len → len ≤ 32 →
      ∃ t : State, exec (.setSecret len) s = .next t ∧
        t = { s with
          key := t.key
          keyLen := t.keyLen
          data := Vector.replicate 64 0
          err := .ok
          busy := false
          done := true } ∧
        t.key.toList = s.data.toList.take len ++ List.replicate (32 - len) 0 ∧
        t.keyLen.val = len ∧ keySet t = true)

/-- HMAC_INIT (R107): NOKEY when no secret is configured, with an open stream left open; else K0 is latched and the inner key
block absorbed from the initial value (one compression, MLEN = 64, FILL = 0). -/
def Obligations.HmacInitLatchesTheKeyAndAbsorbsTheInnerPad : Prop :=
  ∀ s : State,
    (s.keyLen = 0 → exec .hmacInit s = .next { s with err := .nokey, busy := false, done := true }) ∧
    (s.keyLen ≠ 0 →
      ∃ t : State, exec .hmacInit s = .next t ∧
        t = { s with kpad := t.kpad, stream := t.stream, mode := .hmac, err := .ok, busy := false, done := true } ∧
        t.kpad.toList = s.key.toList.take s.keyLen.val ++ List.replicate (64 - s.keyLen.val) 0 ∧
        t.stream.mlen = 64 ∧ t.stream.fill = 0 ∧
        ∀ innerBlock : Vector Byte 64, innerBlock.toList = t.kpad.toList.map (· ^^^ 0x36) →
          t.stream.h = compress #v[0x67452301, 0xEFCDAB89, 0x98BADCFE, 0x10325476, 0xC3D2E1F0] innerBlock)

/-- HMAC_FINAL (R108): SEQ unless MODE = HMAC; else DIG is the SHA-1 of the outer key block and the inner digest, KPAD and the
stream are cleared, and H holds the outer hash's final state. -/
def Obligations.HmacFinalPublishesTheOuterHash : Prop :=
  ∀ s : State,
    (s.mode ≠ .hmac →
      exec .hmacFinal s = .next { s with err := .seq, busy := false, done := true }) ∧
    (s.mode = .hmac →
      ∃ t : State, exec .hmacFinal s = .next t ∧
        t = { s with
          dig := sha1 (s.kpad.toList.map (· ^^^ 0x5c) ++ (finalDigest s.stream).toList)
          stream := { h := t.stream.h, mlen := 0, fill := 0, pbuf := Vector.replicate 64 0 }
          kpad := Vector.replicate 64 0
          mode := .idle
          err := .ok
          busy := false
          done := true } ∧
        ∀ k : Fin 5, hostRead (.digest k) t = hostRead (.h k) t)

/-- R104, R103: HMAC_INIT, SHA_UPDATE commands of any message and any split, HMAC_FINAL give HMAC(K, M) of the configured
secret, by RFC 2104's formula over one-shot SHA-1. -/
def Obligations.StreamedMacIsTheHmacOfTheSecret : Prop :=
  ∀ (s : State) (chunks : List (Vector Byte 64 × Nat)), s.keyLen ≠ 0 → legalChunks chunks = true →
    ∃ t : State,
      andThen (andThen (exec .hmacInit s) (feedChunks chunks)) (exec .hmacFinal) = .next t ∧
      t.dig = Reference.hmac (s.key.toList.take s.keyLen.val) (chunkedMessage chunks) ∧ t.err = .ok ∧ t.mode = .idle ∧
      t.kpad = Vector.replicate 64 0 ∧ t.stream.mlen = 0 ∧ t.stream.fill = 0 ∧
      t.key = s.key ∧ t.keyLen = s.keyLen ∧ t.code = s.code ∧ t.steps = s.steps

/-! ### The TOTP unit -/

/-- R114: SET_TIMESTEP. -/
def Obligations.SetTimestepRejectsZero : Prop :=
  ∀ s : State,
    (s.argLo = 0 → exec .setTimestep s = .next { s with err := .badstep, busy := false, done := true }) ∧
    (s.argLo ≠ 0 → exec .setTimestep s = .next { s with
      timestep := s.argLo, err := .ok, busy := false, done := true })

/-- R109, R110: the truncation of every 20-byte MAC is the number its four bytes at the offset spell, without the top bit, mod
10^6; the six ASCII digits written for a code, read as a decimal number, are that code, and nothing but CODE, CODE_ASCII and
VALID is written; and the sentinel. -/
def Obligations.TruncationSpellsItsBytesAndDigits : Prop :=
  (∀ mac : Vector Byte 20,
    truncationOffset mac = mac[19].toNat % 16 ∧
    (truncationValue mac).toNat = Reference.truncationValue mac ∧
    (truncationValue mac).toNat < 2 ^ 31 ∧
    truncateMac mac = Reference.truncationValue mac % 1000000) ∧
  (∀ (c : Nat) (s : State), c < 1000000 →
    setCode c s = { s with
      code := (setCode c s).code
      codeAscii0 := (setCode c s).codeAscii0
      codeAscii1 := (setCode c s).codeAscii1
      valid := true } ∧
    (setCode c s).code.toNat = c ∧ (setCode c s).codeAscii1.toNat % 2 ^ 16 = 0 ∧
    codeDigits (setCode c s) = Reference.sixDigits c ∧
    (codeDigits (setCode c s)).foldl (fun n d => 10 * n + (d.toNat - 48)) 0 = c) ∧
  (∀ s : State, setSentinel s = { s with code := 0, codeAscii0 := 0x30303030, codeAscii1 := 0x30300000, valid := false })

/-- R117: TRUNCATE, in every MODE and with or without a secret. -/
def Obligations.TruncateWritesTheCodeOfTheDigest : Prop :=
  ∀ s : State, ∃ t : State, exec .truncate s = .next t ∧
    t = { s with
      code := t.code
      codeAscii0 := t.codeAscii0
      codeAscii1 := t.codeAscii1
      valid := true
      err := .ok
      busy := false
      done := true } ∧
    t.code.toNat = Reference.truncationValue s.dig % 1000000 ∧
    codeDigits t = Reference.sixDigits t.code.toNat ∧ t.codeAscii1.toNat % 2 ^ 16 = 0

/-- R113, R115, R116: the sentinel path of both TOTP commands writes the sentinel and nothing else, with ERR = OK. -/
def Obligations.SentinelPathWritesNothingElse : Prop :=
  ∀ s : State,
    (s.keyLen = 0 →
      exec .totpSteps s = .next { s with
        code := 0, codeAscii0 := 0x30303030, codeAscii1 := 0x30300000, valid := false
        err := .ok, busy := false, done := true }) ∧
    (s.keyLen = 0 ∨ (s.argHi = 0 ∧ s.argLo = 0) →
      exec .totpTime s = .next { s with
        code := 0, codeAscii0 := 0x30303030, codeAscii1 := 0x30300000, valid := false
        err := .ok, busy := false, done := true })

/-- R115 (and R112): TOTP_STEPS. Without a secret the sentinel; with one, for every step counter (0 included): the MAC of the
8-byte counter, its code, STEPS, and the end state of every stream register; nothing else changes. -/
def Obligations.TotpStepsHashesTheCounter : Prop :=
  (∀ s : State, s.keyLen = 0 → exec .totpSteps s = .next (finish .ok (setSentinel s))) ∧
  ∀ s : State, s.keyLen ≠ 0 →
    ∃ t : State, exec .totpSteps s = .next t ∧
      t = { s with
        dig := Reference.hmac (s.key.toList.take s.keyLen.val) ([0, 0, 0, 0] ++ bytesOfWord s.argLo)
        stream := { h := t.stream.h, mlen := 0, fill := 0, pbuf := Vector.replicate 64 0 }
        kpad := Vector.replicate 64 0
        mode := .idle
        steps := s.argLo
        code := t.code
        codeAscii0 := t.codeAscii0
        codeAscii1 := t.codeAscii1
        valid := true
        err := .ok
        busy := false
        done := true } ∧
      t.code.toNat = Reference.totpCode (s.key.toList.take s.keyLen.val) s.argLo ∧
      codeDigits t = Reference.sixDigits t.code.toNat ∧ t.codeAscii1.toNat % 2 ^ 16 = 0 ∧
      ∀ k : Fin 5, hostRead (.digest k) t = hostRead (.h k) t

/-- R116, R111: TOTP_TIME. The sentinel without a secret or at a timestamp of 0; else the steps are the low 32 bits of the
quotient of the u64 timestamp by TIMESTEP, and the rest is as for TOTP_STEPS. The hashing clause takes TIMESTEP ≠ 0, which every
run has (R24; StepKeepsTheInvariant). The middle clause, that the command completes in every state, is for TIMESTEP = 0 the model's
choice: R111 gives no division there, and the steps are a free value (DESIGN CHOICE, log 14). -/
def Obligations.TotpTimeHashesTheStepOfTheTimestamp : Prop :=
  (∀ s : State, s.keyLen = 0 ∨ (s.argHi = 0 ∧ s.argLo = 0) →
    exec .totpTime s = .next (finish .ok (setSentinel s))) ∧
  (∀ s : State, ∃ t : State, exec .totpTime s = .next t ∧ t.err = .ok) ∧
  ∀ s : State, s.keyLen ≠ 0 → s.timestep ≠ 0 → (s.argHi ≠ 0 ∨ s.argLo ≠ 0) →
    let steps : Word := BitVec.ofNat 32 ((s.argHi.toNat * 2 ^ 32 + s.argLo.toNat) / s.timestep.toNat)
    ∃ t : State, exec .totpTime s = .next t ∧
      t = { s with
        dig := Reference.hmac (s.key.toList.take s.keyLen.val) ([0, 0, 0, 0] ++ bytesOfWord steps)
        stream := { h := t.stream.h, mlen := 0, fill := 0, pbuf := Vector.replicate 64 0 }
        kpad := Vector.replicate 64 0
        mode := .idle
        steps := steps
        code := t.code
        codeAscii0 := t.codeAscii0
        codeAscii1 := t.codeAscii1
        valid := true
        err := .ok
        busy := false
        done := true } ∧
      t.code.toNat = Reference.totpCode (s.key.toList.take s.keyLen.val) steps ∧
      codeDigits t = Reference.sixDigits t.code.toNat ∧ t.codeAscii1.toNat % 2 ^ 16 = 0 ∧
      ∀ k : Fin 5, hostRead (.digest k) t = hostRead (.h k) t

/-- R112's equivalence, for both TOTP commands: on its hashing path a TOTP command leaves the state that HMAC_INIT, SHA_UPDATE 8
with DATA = the counter block, HMAC_FINAL and TRUNCATE would leave, except that DATA is not written and STEPS is. `steps` is the
counter: ARG_LO for TOTP_STEPS, the quotient of R111 for TOTP_TIME. -/
def Obligations.TotpStepsEqualsTheKeyedStream : Prop :=
  ∀ (s : State) (i : Instr) (steps : Word) (counter : Vector Byte 64), s.keyLen ≠ 0 →
    (i = .totpSteps ∧ steps = s.argLo) ∨
      (i = .totpTime ∧ (s.argHi ≠ 0 ∨ s.argLo ≠ 0) ∧ s.timestep ≠ 0 ∧
        steps = BitVec.ofNat 32 ((s.argHi.toNat * 2 ^ 32 + s.argLo.toNat) / s.timestep.toNat)) →
    counter.toList.take 8 = [0, 0, 0, 0] ++ bytesOfWord steps →
    ∃ t u : State, exec i s = .next t ∧ t.steps = steps ∧
      andThen (andThen (andThen (exec .hmacInit s)
        (fun a => exec (.shaUpdate 8) { a with data := counter })) (exec .hmacFinal)) (exec .truncate) = .next u ∧
      u = { t with data := counter, steps := s.steps }

/-- R119, for every timestamp of the step: the same results at an aligned timestamp t and at every timestamp from t to
t + TIMESTEP - 1, every register but ARG alike; and one step more at t + TIMESTEP. -/
def Obligations.TotpTimeIsConstantWithinAStep : Prop :=
  ∀ (s : State) (first last : DWord), s.timestep ≠ 0 → first ≠ 0 → first.toNat % s.timestep.toNat = 0 →
    first.toNat ≤ last.toNat → last.toNat < first.toNat + s.timestep.toNat →
    ∃ t u : State,
      exec .totpTime { s with argHi := first.extractLsb' 32 32, argLo := first.extractLsb' 0 32 } = .next t ∧
      exec .totpTime { s with argHi := last.extractLsb' 32 32, argLo := last.extractLsb' 0 32 } = .next u ∧
      u = { t with argHi := u.argHi, argLo := u.argLo } ∧
      ∀ next : DWord, next.toNat = first.toNat + s.timestep.toNat → s.keyLen ≠ 0 →
        ∃ v : State,
          exec .totpTime { s with argHi := next.extractLsb' 32 32, argLo := next.extractLsb' 0 32 } = .next v ∧
          v.steps = t.steps + 1

/-- R120: the verifier, with the block idle and no candidate of 2^64 or more, answers true exactly when a secret is configured,
the candidate has six characters, and it is the code of a positive test timestamp in the window -w..+w (so never when w < 0). That
each completion comes right after its acceptance is the model's choice (log 17). -/
def Obligations.VerifierAcceptsExactlyTheWindowCodes : Prop :=
  ∀ (cand : List Char) (T w : Int) (s : State),
    s.busy = false → s.rst = false → s.timestep ≠ 0 → T + w * (s.timestep.toNat : Int) < 2 ^ 64 →
    ∃ (answer : Bool) (t : State), verify cand T w s = .next (answer, t) ∧
      (answer = true ↔
        s.keyLen ≠ 0 ∧ cand.length = 6 ∧
        ∃ off : Int, -w ≤ off ∧ off ≤ w ∧ 0 < T + off * (s.timestep.toNat : Int) ∧
          cand = Reference.sixDigits (Reference.totpCode (s.key.toList.take s.keyLen.val)
            (BitVec.ofNat 32 ((T + off * (s.timestep.toNat : Int)).toNat / s.timestep.toNat)))) ∧
      t.key = s.key ∧ t.keyLen = s.keyLen ∧ t.timestep = s.timestep ∧ t.busy = false

/-! ### The host interface -/

/-- R66: a 32-bit read at every offset of the window returns what the rule lists and changes no state of the block, whatever
BUSY is. -/
def Obligations.HostReadReturnsTheListedValues : Prop :=
  ∀ (s : State) (off : Nat) (rest : List BusEvent), off < 4096 → off % 4 = 0 → s.rst = false →
    s.agenda = .read (Config.base + off) .bits32 :: rest →
    step s = .next { s with agenda := rest, rdata := some (windowValue s off) }

/-- R67: a 32-bit write at every offset of the window does what the rule's cases say. -/
def Obligations.HostWriteDoesWhatItsCaseSays : Prop :=
  ∀ (s : State) (off : Nat) (v : Word) (rest : List BusEvent), off < 4096 → off % 4 = 0 → s.rst = false →
    s.agenda = .write (Config.base + off) .bits32 v :: rest →
    ∃ t : State, step s = .next t ∧ windowWrite off v { s with agenda := rest } t

/-- R68, R140: a write to CMD while BUSY = 0 is accepted and changes nothing but CMDW, BUSY and DONE; a write to any guarded
register while BUSY = 1 is dropped and sets OVR. -/
def Obligations.AcceptanceAndDroppedWrites : Prop :=
  ∀ (s : State) (v : Word) (rest : List BusEvent), s.rst = false →
    (s.busy = false → s.agenda = .write (Config.base + 0x010) .bits32 v :: rest →
      step s = .next { s with agenda := rest, cmdw := v, busy := true, done := false }) ∧
    (∀ off : Nat, guardedOffset off → off % 4 = 0 → s.busy = true →
      s.agenda = .write (Config.base + off) .bits32 v :: rest →
      step s = .next { s with agenda := rest, ovr := true })

/-- R45 (with R137 and log 6): an access that is not a 32-bit access at a multiple of 4 is refused, an access while `rst` is
asserted is refused, and (the model's own choice, log 6) an address outside the window faults. -/
def Obligations.AccessesOutsideTheInterfaceStop : Prop :=
  ∀ (s : State) (addr : Nat) (width : AccessWidth) (v : Word) (rest : List BusEvent),
    (s.agenda = .read addr width :: rest ∨ s.agenda = .write addr width v :: rest) →
    (addr < Config.base ∨ Config.base + 4096 ≤ addr → step s = .fault .outsideWindow) ∧
    (Config.base ≤ addr → addr < Config.base + 4096 → s.rst = true → step s = .refused .accessDuringReset) ∧
    (Config.base ≤ addr → addr < Config.base + 4096 → s.rst = false → width ≠ .bits32 →
      step s = .refused .accessWidth) ∧
    (Config.base ≤ addr → addr < Config.base + 4096 → s.rst = false → width = .bits32 → addr % 4 ≠ 0 →
      step s = .refused .misalignedAccess)

/-- R50: a reserved offset reads 0 and ignores writes, without OVR or any other effect, whatever BUSY is; the reserved bits of
CTRL, STATUS, KEYLEN, FILL and CODE (R19, R20, R25, R26, R28) read 0 and ignore the value written. CODE's are 0 in every state of
the invariant. -/
def Obligations.ReservedOffsetsReadZeroAndIgnoreWrites : Prop :=
  (∀ s : State, hostRead .ctrl s &&& 0xFFFFFFFE = 0 ∧ hostRead .status s &&& 0xFFFFF080 = 0 ∧
    hostRead .keyLen s &&& 0xFFFFFFC0 = 0 ∧ hostRead .fill s &&& 0xFFFFFFC0 = 0 ∧
    (BlockInvariant s → hostRead .code s &&& 0xFFF00000 = 0)) ∧
  (∀ (s : State) (v : Word), hostWrite .ctrl v s = hostWrite .ctrl (v &&& 1) s ∧
    hostWrite .status v s = hostWrite .status (v &&& 6) s) ∧
  ∀ (s : State) (off : Nat) (v : Word) (rest : List BusEvent),
    off % 4 = 0 → (0x054 ≤ off ∧ off ≤ 0x05C) ∨ (0x074 ≤ off ∧ off ≤ 0x07C) ∨ (0x0C0 ≤ off ∧ off ≤ 0xFFC) →
    s.rst = false →
    (s.agenda = .read (Config.base + off) .bits32 :: rest → step s = .next { s with agenda := rest, rdata := some 0 }) ∧
    (s.agenda = .write (Config.base + off) .bits32 v :: rest → step s = .next { s with agenda := rest })

/-- R73: at the acceptance every register but STATUS reads as before, and STATUS differs only in BUSY and DONE; and from every
state with BUSY = 1, a step that is not ENGINE's turn or an edge of `rst` leaves BUSY = 1, the command in flight and every register
reading as before, but for what HOST itself writes to CTRL and STATUS: IE, and in STATUS the bits DONE and OVR. -/
def Obligations.ReadsWhileBusyGiveTheOldValues : Prop :=
  (∀ (s : State) (v : Word) (r : Reg), s.busy = false →
    (r ≠ .status → hostRead r (hostWrite .cmd v s) = hostRead r s) ∧
    hostRead .status (hostWrite .cmd v s) = (hostRead .status s &&& 0xFFFFFFFC) ||| 1) ∧
  (∀ s t : State, s.busy = true → step s = .next t → ¬ engineNext s →
    (∀ rest, s.agenda ≠ .assertRst :: rest ∧ s.agenda ≠ .releaseRst :: rest) →
    t.busy = true ∧ t.cmdw = s.cmdw ∧
    (∀ r : Reg, r ≠ .ctrl → r ≠ .status → hostRead r t = hostRead r s) ∧
    hostRead .status t &&& 0xFFFFFFF9 = hostRead .status s &&& 0xFFFFFFF9 ∧
    ((∀ v rest, s.agenda ≠ .write (Config.base + 0x008) .bits32 v :: rest) → hostRead .ctrl t = hostRead .ctrl s))

/-- R127: `irq = CTRL.IE & STATUS.DONE`. It is low from acceptance, equal to IE after every completion, low after a 1 is written
to STATUS bit 1, and follows IE while DONE stands, IE leaving DONE as it is. -/
def Obligations.IrqIsTheLevelOfIeAndDone : Prop :=
  (∀ s : State, irq s = true ↔ s.ie = true ∧ s.done = true) ∧
  (∀ s : State, irqRequest s = if s.ie = true ∧ s.done = true then some Config.irqLine else none) ∧
  (∀ (s : State) (v : Word), s.busy = false → irq (hostWrite .cmd v s) = false) ∧
  (∀ (i : Instr) (s t : State), exec i s = .next t → irq t = s.ie) ∧
  (∀ (s : State) (v : Word), v.getLsbD 1 = true → irq (hostWrite .status v s) = false) ∧
  (∀ (s : State) (v : Word), irq (hostWrite .ctrl v s) = (v.getLsbD 0 && s.done) ∧
    (hostWrite .ctrl v s).done = s.done)

/-- R124: OVR is sticky: over all steps, it falls only by a write of 1 to STATUS bit 2 or at an edge of `rst`; and ERR changes only
in a completion or at an edge of `rst` (R122). -/
def Obligations.OverrunAndErrAreSticky : Prop :=
  ∀ s t : State, step s = .next t →
    (s.ovr = true → t.ovr = false →
      (∃ v rest, v.getLsbD 2 = true ∧ s.agenda = .write (Config.base + 0x00C) .bits32 v :: rest) ∨
      (∃ rest, s.agenda = .assertRst :: rest ∨ s.agenda = .releaseRst :: rest)) ∧
    (t.err ≠ s.err →
      (engineNext s ∧ s.busy = true) ∨ (∃ rest, s.agenda = .assertRst :: rest ∨ s.agenda = .releaseRst :: rest))

/-- R137: asserting `rst` in any state, a command in flight or not, puts every element at its reset value (the reset input, the
agenda and the last value read are not elements of the block), and so does releasing it; while it is asserted ENGINE does
nothing and a host access is refused. The model's choice: the two edges as events, and that the agenda and the last value read
are kept (DESIGN CHOICE, log 8, log 9); that ENGINE's turn under `rst` is a step to the same state, the turn taken (log 3). -/
def Obligations.ResetSetsEveryElement : Prop :=
  (∀ s : State, s.rst = true → engineNext s → step s = .next (taken s)) ∧
  (∀ (s : State) (off : Nat) (width : AccessWidth) (v : Word) (rest : List BusEvent), s.rst = true → off < 4096 →
    (s.agenda = .read (Config.base + off) width :: rest ∨ s.agenda = .write (Config.base + off) width v :: rest) →
    step s = .refused .accessDuringReset) ∧
  ∀ (s : State) (rest : List BusEvent),
    (s.agenda = .assertRst :: rest ∨ (s.agenda = .releaseRst :: rest ∧ s.rst = true)) →
    ∃ asserted : Bool, (asserted = true ↔ s.agenda = .assertRst :: rest) ∧
      step s = .next
        { ie := false, busy := false, done := false, ovr := false, valid := false, mode := .idle, err := .ok
          cmdw := 0, argLo := 0, argHi := 0, timestep := 30, keyLen := 0, key := Vector.replicate 32 0
          stream := { h := Vector.replicate 5 0, mlen := 0, fill := 0, pbuf := Vector.replicate 64 0 }
          kpad := Vector.replicate 64 0, dig := Vector.replicate 20 0, data := Vector.replicate 64 0
          code := 0, codeAscii0 := 0x30303030, codeAscii1 := 0x30300000, steps := 0
          rst := asserted, agenda := rest, rdata := s.rdata }

/-- R138: after reset the block is idle and has no secret: the TOTP commands give the sentinel, HMAC_INIT gives NOKEY, `irq` is low,
and the block runs nothing until HOST acts (an empty agenda, log 2). -/
def Obligations.AfterResetTheBlockIsIdleWithoutASecret : Prop :=
  (∀ rdata : Option Word, step { State.reset with agenda := [], rdata := rdata } =
    .next { State.reset with agenda := [], rdata := rdata }) ∧
  irq State.reset = false ∧ keySet State.reset = false ∧
  State.reset.busy = false ∧ State.reset.mode = .idle ∧
  (∀ argLo argHi : Word, ∃ t u v : State,
    exec .totpSteps { State.reset with argLo := argLo, argHi := argHi } = .next t ∧ t.valid = false ∧ t.err = .ok ∧
    exec .totpTime { State.reset with argLo := argLo, argHi := argHi } = .next u ∧ u.valid = false ∧ u.err = .ok ∧
    exec .hmacInit { State.reset with argLo := argLo, argHi := argHi } = .next v ∧ v.err = .nokey)

/-- R71: whatever accesses HOST makes, an accepted command completes after finitely many of them: a run that is not stopped
is, one step after the agenda is used up, not BUSY. (That an agenda is finite and that ENGINE has its turn when it is used up is
the model's form of weak fairness, log 2.) -/
def Obligations.EveryAcceptedCommandCompletes : Prop :=
  ∀ s t : State, BlockInvariant s → Host.Core.run core (s.agenda.length + 1) s = .next t → t.busy = false ∧ t.agenda = []

/-- R35, R36, R37, R38: no register of the window shows KEY, PBUF, KPAD or CMDW. -/
def Obligations.HiddenRegistersAreNotReadable : Prop :=
  ∀ (s t : State) (r : Reg), sameButHidden s t → hostRead r t = hostRead r s

/-! ### The invariant -/

/-- The invariant holds right after reset. -/
def Obligations.ResetMeetsTheInvariant : Prop := BlockInvariant State.reset

/-- Every step keeps the invariant: TIMESTEP is never 0, KEY is zero from KEYLEN on, CODE is below 10^6 and CODE_ASCII its
digits, FILL counts MLEN mod 64, an idle block has no stream and no latched key, and `rst` holds the reset values. -/
def Obligations.StepKeepsTheInvariant : Prop :=
  ∀ s t : State, BlockInvariant s → step s = .next t → BlockInvariant t
end

