-- ==== Sys2Proof/Laws/Bytes.lean ====
section
/-! SUPPORT. What the byte and word conversions do: lengths, zero padding, and reading back what was written. -/

namespace Sys2Proof.Machine

@[simp] theorem zeros_length (n : Nat) : (zeros n).length = n := by simp [zeros]

@[simp] theorem zeros_zero : zeros 0 = [] := rfl

theorem zeros_append (m n : Nat) : zeros m ++ zeros n = zeros (m + n) := by simp [zeros]

theorem take_zeros (m n : Nat) : (zeros n).take m = zeros (min m n) := by simp [zeros, List.take_replicate]

@[simp] theorem bytesOfWord_length (x : Word) : (bytesOfWord x).length = 4 := rfl

@[simp] theorem bytesOfDWord_length (x : DWord) : (bytesOfDWord x).length = 8 := rfl

@[simp] theorem xorBytes_length (S T : List Byte) : (xorBytes S T).length = min S.length T.length := by
  simp [xorBytes]

/-- Against a constant pad of the same length, `xorBytes` is a map. -/
theorem xorBytes_replicate (S : List Byte) (b : Byte) (n : Nat) (h : S.length ≤ n) :
    xorBytes S (List.replicate n b) = S.map (· ^^^ b) := by
  induction S generalizing n with
  | nil => simp [xorBytes]
  | cons x S ih =>
    cases n with
    | zero => simp at h
    | succ n =>
      have := ih n (by simpa using h)
      simp only [xorBytes] at this
      simp [xorBytes, List.replicate_succ, this]

theorem padTo_toList (n : Nat) (S : List Byte) : (padTo n S).toList = (S ++ zeros n).take n := by
  simp [padTo, Vector.toList]

/-- A sequence that fits is kept and filled up with zeros. -/
theorem padTo_toList_of_le {n : Nat} {S : List Byte} (h : S.length ≤ n) :
    (padTo n S).toList = S ++ zeros (n - S.length) := by
  rw [padTo_toList, List.take_append, List.take_of_length_le h, take_zeros, Nat.min_eq_left (by omega)]

/-- A sequence of exactly the buffer's length is kept. -/
theorem padTo_toList_of_eq {n : Nat} {S : List Byte} (h : S.length = n) : (padTo n S).toList = S := by
  rw [padTo_toList_of_le (Nat.le_of_eq h), h]; simp

/-- A buffer is determined by its bytes. -/
theorem vector_eq_of_toList_eq {n : Nat} {u v : Vector Byte n} (h : u.toList = v.toList) : u = v :=
  Vector.toList_inj.mp h

@[simp] theorem padTo_toList_self {n : Nat} (v : Vector Byte n) : padTo n v.toList = v :=
  vector_eq_of_toList_eq (padTo_toList_of_eq (by simp))

@[simp] theorem zeroBytes_toList (n : Nat) : (Vector.replicate n (0 : Byte)).toList = zeros n := by
  simp [zeros]

theorem byteAt_append_left {S T : List Byte} {i : Nat} (h : i < S.length) : byteAt (S ++ T) i = byteAt S i := by
  simp [byteAt, List.getD_eq_getElem?_getD, List.getElem?_append_left h]

theorem byteAt_append_right {S T : List Byte} {i : Nat} (h : S.length ≤ i) :
    byteAt (S ++ T) i = byteAt T (i - S.length) := by
  simp [byteAt, List.getD_eq_getElem?_getD, List.getElem?_append_right h]

/-- `be32(BE32(x), 0) = x` (R10). -/
@[simp] theorem be32_bytesOfWord (x : Word) : be32 (bytesOfWord x) 0 = x := by
  simp only [be32, bytesOfWord, byteAt, List.getD_cons_zero, List.getD_cons_succ, Nat.zero_add]
  apply BitVec.eq_of_getLsbD_eq
  intro i hi
  simp only [BitVec.getLsbD_append, BitVec.getLsbD_extractLsb']
  split <;> rename_i h1
  · simp [h1]
  · split <;> rename_i h2
    · simp [h2, show 8 + (i - 8) = i by omega]
    · split <;> rename_i h3
      · simp [h3, show 16 + (i - 8 - 8) = i by omega]
      · simp [show i - 8 - 8 - 8 < 8 by omega, show 24 + (i - 8 - 8 - 8) = i by omega]

theorem be32_append_left {S T : List Byte} {i : Nat} (h : i + 3 < S.length) : be32 (S ++ T) i = be32 S i := by
  simp [be32, byteAt_append_left (show i < S.length by omega), byteAt_append_left (show i + 1 < S.length by omega),
    byteAt_append_left (show i + 2 < S.length by omega), byteAt_append_left h]

theorem be32_append_right {S T : List Byte} {i : Nat} (h : S.length ≤ i) :
    be32 (S ++ T) i = be32 T (i - S.length) := by
  have h1 : i + 1 - S.length = i - S.length + 1 := by omega
  have h2 : i + 2 - S.length = i - S.length + 2 := by omega
  have h3 : i + 3 - S.length = i - S.length + 3 := by omega
  simp [be32, byteAt_append_right h, byteAt_append_right (show S.length ≤ i + 1 by omega),
    byteAt_append_right (show S.length ≤ i + 2 by omega), byteAt_append_right (show S.length ≤ i + 3 by omega), h1, h2, h3]

/-- Word `k` of a concatenation of words written big-endian is that word (R42). -/
theorem be32_flatMap_bytesOfWord (ws : List Word) (k : Nat) (h : k < ws.length) :
    be32 (ws.flatMap bytesOfWord) (4 * k) = ws[k] := by
  induction ws generalizing k with
  | nil => simp at h
  | cons w ws ih =>
    rw [List.flatMap_cons]
    cases k with
    | zero => rw [Nat.mul_zero, be32_append_left (by simp)]; simp
    | succ k =>
      rw [be32_append_right (by simp), bytesOfWord_length, show 4 * (k + 1) - 4 = 4 * k by omega,
        ih k (by simpa using h)]
      simp

theorem flatMap_bytesOfWord_length (ws : List Word) : (ws.flatMap bytesOfWord).length = 4 * ws.length := by
  induction ws with
  | nil => rfl
  | cons w ws ih => simp [List.flatMap_cons, ih]; omega

/-- The bytes of a buffer after one word of it is replaced (R67). -/
theorem setWord_toList (buf : Vector Byte 64) (k : Fin 16) (v : Word) :
    (setWord buf k v).toList = buf.toList.take (4 * k.val) ++ bytesOfWord v ++ buf.toList.drop (4 * k.val + 4) := by
  have hk := k.isLt
  apply List.ext_getElem
  · simp; omega
  · intro i h1 h2
    have hi : i < 64 := by simpa using h1
    simp only [setWord, Vector.getElem_toList, Vector.getElem_set, bytesOfWord]
    by_cases ha : i < 4 * k.val
    · rw [List.getElem_append_left (by simp; omega), List.getElem_append_left (by simp; omega), List.getElem_take]
      simp only [Vector.getElem_toList]
      repeat rw [if_neg (by omega)]
    · by_cases hb : i < 4 * k.val + 4
      · rw [List.getElem_append_left (by simp; omega), List.getElem_append_right (by simp; omega)]
        obtain h | h | h | h : i = 4 * k.val ∨ i = 4 * k.val + 1 ∨ i = 4 * k.val + 2 ∨ i = 4 * k.val + 3 := by omega
        all_goals subst h; simp [show min (4 * k.val) 64 = 4 * k.val by omega]
      · rw [List.getElem_append_right (by simp; omega), List.getElem_drop]
        repeat rw [if_neg (by omega)]
        have : 4 * k.val + 4 + (i - (min (4 * k.val) 64 + 4)) = i := by omega
        simp [this]

/-- Four bytes put together as a word are the word's bytes (R10). -/
theorem bytesOfWord_append (a b c d : Byte) : bytesOfWord (a ++ b ++ c ++ d) = [a, b, c, d] := by
  have e : ∀ x y : Byte, x = y ↔ ∀ i < 8, x.getLsbD i = y.getLsbD i := fun x y =>
    ⟨fun h i _ => h ▸ rfl, fun h => BitVec.eq_of_getLsbD_eq (fun i hi => h i hi)⟩
  simp only [bytesOfWord, List.cons.injEq, and_true, e]
  refine ⟨fun i hi => ?_, fun i hi => ?_, fun i hi => ?_, fun i hi => ?_⟩ <;>
    simp only [BitVec.getLsbD_extractLsb', BitVec.getLsbD_append, hi, decide_true, Bool.true_and]
  · rw [if_neg (by omega), if_neg (by omega), if_neg (by omega)]; congr 1; omega
  · rw [if_neg (by omega), if_neg (by omega), if_pos (by omega)]; congr 1; omega
  · rw [if_neg (by omega), if_pos (by omega)]; congr 1; omega
  · rw [if_pos (by omega)]; congr 1; omega

/-- The shifted and joined form of four bytes is the word they spell (R109). -/
theorem word_of_bytes (a b c d : Byte) :
    (a.setWidth 32 <<< 24 ||| b.setWidth 32 <<< 16 ||| c.setWidth 32 <<< 8 ||| d.setWidth 32 : Word) =
      a ++ b ++ c ++ d := by
  apply BitVec.eq_of_getLsbD_eq
  intro i hi
  simp only [BitVec.getLsbD_or, BitVec.getLsbD_shiftLeft, BitVec.getLsbD_setWidth, BitVec.getLsbD_append, hi,
    decide_true, Bool.true_and]
  have z : ∀ (x : Byte) j, 8 ≤ j → x.getLsbD j = false := fun x j h => BitVec.getLsbD_of_ge x j h
  by_cases h1 : i < 8
  · simp [h1, show i < 24 by omega, show i < 16 by omega]
  · by_cases h2 : i - 8 < 8
    · simp [h1, h2, show i < 24 by omega, show i < 16 by omega, z d i (by omega), show i - 8 < 32 by omega]
    · by_cases h3 : i - 8 - 8 < 8
      · simp [h1, h2, h3, show i < 24 by omega, show ¬ i < 16 by omega, z d i (by omega), z c (i - 8) (by omega),
          show i - 16 = i - 8 - 8 by omega, show i - 8 - 8 < 32 by omega]
      · simp [h1, h2, h3, show ¬ i < 24 by omega, show ¬ i < 16 by omega, z d i (by omega),
          z c (i - 8) (by omega), z b (i - 16) (by omega), show i - 24 = i - 8 - 8 - 8 by omega, show i - 8 - 8 - 8 < 32 by omega]

/-- The number four bytes spell, the first the most significant (R10). -/
theorem word_toNat (a b c d : Byte) :
    (a ++ b ++ c ++ d : Word).toNat = a.toNat * 2 ^ 24 + b.toNat * 2 ^ 16 + c.toNat * 2 ^ 8 + d.toNat := by
  have := a.isLt; have := b.isLt; have := c.isLt; have := d.isLt
  simp only [BitVec.toNat_append]
  rw [← Nat.shiftLeft_add_eq_or_of_lt (by omega), ← Nat.shiftLeft_add_eq_or_of_lt (by omega),
    ← Nat.shiftLeft_add_eq_or_of_lt (by omega)]
  simp only [Nat.shiftLeft_eq]; omega

end Sys2Proof.Machine
end

