-- ==== Sys2Proof/Laws/State.lean ====
section
/-! SUPPORT. What each named update of the state leaves in each field: one lemma per field per update, so that no proof
unfolds a record update. -/

namespace Sys2Proof.Machine

@[simp] theorem writeCtrl_ie (v : Word) (s : State) : (writeCtrl v s).ie = v.getLsbD 0 := rfl
@[simp] theorem writeCtrl_busy (v : Word) (s : State) : (writeCtrl v s).busy = s.busy := rfl
@[simp] theorem writeCtrl_done (v : Word) (s : State) : (writeCtrl v s).done = s.done := rfl
@[simp] theorem writeCtrl_ovr (v : Word) (s : State) : (writeCtrl v s).ovr = s.ovr := rfl
@[simp] theorem writeCtrl_valid (v : Word) (s : State) : (writeCtrl v s).valid = s.valid := rfl
@[simp] theorem writeCtrl_mode (v : Word) (s : State) : (writeCtrl v s).mode = s.mode := rfl
@[simp] theorem writeCtrl_err (v : Word) (s : State) : (writeCtrl v s).err = s.err := rfl
@[simp] theorem writeCtrl_cmdw (v : Word) (s : State) : (writeCtrl v s).cmdw = s.cmdw := rfl
@[simp] theorem writeCtrl_argLo (v : Word) (s : State) : (writeCtrl v s).argLo = s.argLo := rfl
@[simp] theorem writeCtrl_argHi (v : Word) (s : State) : (writeCtrl v s).argHi = s.argHi := rfl
@[simp] theorem writeCtrl_timestep (v : Word) (s : State) : (writeCtrl v s).timestep = s.timestep := rfl
@[simp] theorem writeCtrl_keyLen (v : Word) (s : State) : (writeCtrl v s).keyLen = s.keyLen := rfl
@[simp] theorem writeCtrl_key (v : Word) (s : State) : (writeCtrl v s).key = s.key := rfl
@[simp] theorem writeCtrl_stream (v : Word) (s : State) : (writeCtrl v s).stream = s.stream := rfl
@[simp] theorem writeCtrl_kpad (v : Word) (s : State) : (writeCtrl v s).kpad = s.kpad := rfl
@[simp] theorem writeCtrl_dig (v : Word) (s : State) : (writeCtrl v s).dig = s.dig := rfl
@[simp] theorem writeCtrl_data (v : Word) (s : State) : (writeCtrl v s).data = s.data := rfl
@[simp] theorem writeCtrl_code (v : Word) (s : State) : (writeCtrl v s).code = s.code := rfl
@[simp] theorem writeCtrl_codeAscii0 (v : Word) (s : State) : (writeCtrl v s).codeAscii0 = s.codeAscii0 := rfl
@[simp] theorem writeCtrl_codeAscii1 (v : Word) (s : State) : (writeCtrl v s).codeAscii1 = s.codeAscii1 := rfl
@[simp] theorem writeCtrl_steps (v : Word) (s : State) : (writeCtrl v s).steps = s.steps := rfl
@[simp] theorem writeCtrl_rst (v : Word) (s : State) : (writeCtrl v s).rst = s.rst := rfl
@[simp] theorem writeCtrl_agenda (v : Word) (s : State) : (writeCtrl v s).agenda = s.agenda := rfl
@[simp] theorem writeCtrl_rdata (v : Word) (s : State) : (writeCtrl v s).rdata = s.rdata := rfl

@[simp] theorem writeStatus_ie (v : Word) (s : State) : (writeStatus v s).ie = s.ie := rfl
@[simp] theorem writeStatus_busy (v : Word) (s : State) : (writeStatus v s).busy = s.busy := rfl
@[simp] theorem writeStatus_done (v : Word) (s : State) : (writeStatus v s).done = (s.done && !v.getLsbD 1) := rfl
@[simp] theorem writeStatus_ovr (v : Word) (s : State) : (writeStatus v s).ovr = (s.ovr && !v.getLsbD 2) := rfl
@[simp] theorem writeStatus_valid (v : Word) (s : State) : (writeStatus v s).valid = s.valid := rfl
@[simp] theorem writeStatus_mode (v : Word) (s : State) : (writeStatus v s).mode = s.mode := rfl
@[simp] theorem writeStatus_err (v : Word) (s : State) : (writeStatus v s).err = s.err := rfl
@[simp] theorem writeStatus_cmdw (v : Word) (s : State) : (writeStatus v s).cmdw = s.cmdw := rfl
@[simp] theorem writeStatus_argLo (v : Word) (s : State) : (writeStatus v s).argLo = s.argLo := rfl
@[simp] theorem writeStatus_argHi (v : Word) (s : State) : (writeStatus v s).argHi = s.argHi := rfl
@[simp] theorem writeStatus_timestep (v : Word) (s : State) : (writeStatus v s).timestep = s.timestep := rfl
@[simp] theorem writeStatus_keyLen (v : Word) (s : State) : (writeStatus v s).keyLen = s.keyLen := rfl
@[simp] theorem writeStatus_key (v : Word) (s : State) : (writeStatus v s).key = s.key := rfl
@[simp] theorem writeStatus_stream (v : Word) (s : State) : (writeStatus v s).stream = s.stream := rfl
@[simp] theorem writeStatus_kpad (v : Word) (s : State) : (writeStatus v s).kpad = s.kpad := rfl
@[simp] theorem writeStatus_dig (v : Word) (s : State) : (writeStatus v s).dig = s.dig := rfl
@[simp] theorem writeStatus_data (v : Word) (s : State) : (writeStatus v s).data = s.data := rfl
@[simp] theorem writeStatus_code (v : Word) (s : State) : (writeStatus v s).code = s.code := rfl
@[simp] theorem writeStatus_codeAscii0 (v : Word) (s : State) : (writeStatus v s).codeAscii0 = s.codeAscii0 := rfl
@[simp] theorem writeStatus_codeAscii1 (v : Word) (s : State) : (writeStatus v s).codeAscii1 = s.codeAscii1 := rfl
@[simp] theorem writeStatus_steps (v : Word) (s : State) : (writeStatus v s).steps = s.steps := rfl
@[simp] theorem writeStatus_rst (v : Word) (s : State) : (writeStatus v s).rst = s.rst := rfl
@[simp] theorem writeStatus_agenda (v : Word) (s : State) : (writeStatus v s).agenda = s.agenda := rfl
@[simp] theorem writeStatus_rdata (v : Word) (s : State) : (writeStatus v s).rdata = s.rdata := rfl

@[simp] theorem dropWrite_ie (s : State) : (dropWrite s).ie = s.ie := rfl
@[simp] theorem dropWrite_busy (s : State) : (dropWrite s).busy = s.busy := rfl
@[simp] theorem dropWrite_done (s : State) : (dropWrite s).done = s.done := rfl
@[simp] theorem dropWrite_ovr (s : State) : (dropWrite s).ovr = true := rfl
@[simp] theorem dropWrite_valid (s : State) : (dropWrite s).valid = s.valid := rfl
@[simp] theorem dropWrite_mode (s : State) : (dropWrite s).mode = s.mode := rfl
@[simp] theorem dropWrite_err (s : State) : (dropWrite s).err = s.err := rfl
@[simp] theorem dropWrite_cmdw (s : State) : (dropWrite s).cmdw = s.cmdw := rfl
@[simp] theorem dropWrite_argLo (s : State) : (dropWrite s).argLo = s.argLo := rfl
@[simp] theorem dropWrite_argHi (s : State) : (dropWrite s).argHi = s.argHi := rfl
@[simp] theorem dropWrite_timestep (s : State) : (dropWrite s).timestep = s.timestep := rfl
@[simp] theorem dropWrite_keyLen (s : State) : (dropWrite s).keyLen = s.keyLen := rfl
@[simp] theorem dropWrite_key (s : State) : (dropWrite s).key = s.key := rfl
@[simp] theorem dropWrite_stream (s : State) : (dropWrite s).stream = s.stream := rfl
@[simp] theorem dropWrite_kpad (s : State) : (dropWrite s).kpad = s.kpad := rfl
@[simp] theorem dropWrite_dig (s : State) : (dropWrite s).dig = s.dig := rfl
@[simp] theorem dropWrite_data (s : State) : (dropWrite s).data = s.data := rfl
@[simp] theorem dropWrite_code (s : State) : (dropWrite s).code = s.code := rfl
@[simp] theorem dropWrite_codeAscii0 (s : State) : (dropWrite s).codeAscii0 = s.codeAscii0 := rfl
@[simp] theorem dropWrite_codeAscii1 (s : State) : (dropWrite s).codeAscii1 = s.codeAscii1 := rfl
@[simp] theorem dropWrite_steps (s : State) : (dropWrite s).steps = s.steps := rfl
@[simp] theorem dropWrite_rst (s : State) : (dropWrite s).rst = s.rst := rfl
@[simp] theorem dropWrite_agenda (s : State) : (dropWrite s).agenda = s.agenda := rfl
@[simp] theorem dropWrite_rdata (s : State) : (dropWrite s).rdata = s.rdata := rfl

@[simp] theorem accept_ie (v : Word) (s : State) : (accept v s).ie = s.ie := rfl
@[simp] theorem accept_busy (v : Word) (s : State) : (accept v s).busy = true := rfl
@[simp] theorem accept_done (v : Word) (s : State) : (accept v s).done = false := rfl
@[simp] theorem accept_ovr (v : Word) (s : State) : (accept v s).ovr = s.ovr := rfl
@[simp] theorem accept_valid (v : Word) (s : State) : (accept v s).valid = s.valid := rfl
@[simp] theorem accept_mode (v : Word) (s : State) : (accept v s).mode = s.mode := rfl
@[simp] theorem accept_err (v : Word) (s : State) : (accept v s).err = s.err := rfl
@[simp] theorem accept_cmdw (v : Word) (s : State) : (accept v s).cmdw = v := rfl
@[simp] theorem accept_argLo (v : Word) (s : State) : (accept v s).argLo = s.argLo := rfl
@[simp] theorem accept_argHi (v : Word) (s : State) : (accept v s).argHi = s.argHi := rfl
@[simp] theorem accept_timestep (v : Word) (s : State) : (accept v s).timestep = s.timestep := rfl
@[simp] theorem accept_keyLen (v : Word) (s : State) : (accept v s).keyLen = s.keyLen := rfl
@[simp] theorem accept_key (v : Word) (s : State) : (accept v s).key = s.key := rfl
@[simp] theorem accept_stream (v : Word) (s : State) : (accept v s).stream = s.stream := rfl
@[simp] theorem accept_kpad (v : Word) (s : State) : (accept v s).kpad = s.kpad := rfl
@[simp] theorem accept_dig (v : Word) (s : State) : (accept v s).dig = s.dig := rfl
@[simp] theorem accept_data (v : Word) (s : State) : (accept v s).data = s.data := rfl
@[simp] theorem accept_code (v : Word) (s : State) : (accept v s).code = s.code := rfl
@[simp] theorem accept_codeAscii0 (v : Word) (s : State) : (accept v s).codeAscii0 = s.codeAscii0 := rfl
@[simp] theorem accept_codeAscii1 (v : Word) (s : State) : (accept v s).codeAscii1 = s.codeAscii1 := rfl
@[simp] theorem accept_steps (v : Word) (s : State) : (accept v s).steps = s.steps := rfl
@[simp] theorem accept_rst (v : Word) (s : State) : (accept v s).rst = s.rst := rfl
@[simp] theorem accept_agenda (v : Word) (s : State) : (accept v s).agenda = s.agenda := rfl
@[simp] theorem accept_rdata (v : Word) (s : State) : (accept v s).rdata = s.rdata := rfl

@[simp] theorem finish_ie (e : ErrCode) (s : State) : (finish e s).ie = s.ie := rfl
@[simp] theorem finish_busy (e : ErrCode) (s : State) : (finish e s).busy = false := rfl
@[simp] theorem finish_done (e : ErrCode) (s : State) : (finish e s).done = true := rfl
@[simp] theorem finish_ovr (e : ErrCode) (s : State) : (finish e s).ovr = s.ovr := rfl
@[simp] theorem finish_valid (e : ErrCode) (s : State) : (finish e s).valid = s.valid := rfl
@[simp] theorem finish_mode (e : ErrCode) (s : State) : (finish e s).mode = s.mode := rfl
@[simp] theorem finish_err (e : ErrCode) (s : State) : (finish e s).err = e := rfl
@[simp] theorem finish_cmdw (e : ErrCode) (s : State) : (finish e s).cmdw = s.cmdw := rfl
@[simp] theorem finish_argLo (e : ErrCode) (s : State) : (finish e s).argLo = s.argLo := rfl
@[simp] theorem finish_argHi (e : ErrCode) (s : State) : (finish e s).argHi = s.argHi := rfl
@[simp] theorem finish_timestep (e : ErrCode) (s : State) : (finish e s).timestep = s.timestep := rfl
@[simp] theorem finish_keyLen (e : ErrCode) (s : State) : (finish e s).keyLen = s.keyLen := rfl
@[simp] theorem finish_key (e : ErrCode) (s : State) : (finish e s).key = s.key := rfl
@[simp] theorem finish_stream (e : ErrCode) (s : State) : (finish e s).stream = s.stream := rfl
@[simp] theorem finish_kpad (e : ErrCode) (s : State) : (finish e s).kpad = s.kpad := rfl
@[simp] theorem finish_dig (e : ErrCode) (s : State) : (finish e s).dig = s.dig := rfl
@[simp] theorem finish_data (e : ErrCode) (s : State) : (finish e s).data = s.data := rfl
@[simp] theorem finish_code (e : ErrCode) (s : State) : (finish e s).code = s.code := rfl
@[simp] theorem finish_codeAscii0 (e : ErrCode) (s : State) : (finish e s).codeAscii0 = s.codeAscii0 := rfl
@[simp] theorem finish_codeAscii1 (e : ErrCode) (s : State) : (finish e s).codeAscii1 = s.codeAscii1 := rfl
@[simp] theorem finish_steps (e : ErrCode) (s : State) : (finish e s).steps = s.steps := rfl
@[simp] theorem finish_rst (e : ErrCode) (s : State) : (finish e s).rst = s.rst := rfl
@[simp] theorem finish_agenda (e : ErrCode) (s : State) : (finish e s).agenda = s.agenda := rfl
@[simp] theorem finish_rdata (e : ErrCode) (s : State) : (finish e s).rdata = s.rdata := rfl

@[simp] theorem setCode_ie (c : Nat) (s : State) : (setCode c s).ie = s.ie := rfl
@[simp] theorem setCode_busy (c : Nat) (s : State) : (setCode c s).busy = s.busy := rfl
@[simp] theorem setCode_done (c : Nat) (s : State) : (setCode c s).done = s.done := rfl
@[simp] theorem setCode_ovr (c : Nat) (s : State) : (setCode c s).ovr = s.ovr := rfl
@[simp] theorem setCode_valid (c : Nat) (s : State) : (setCode c s).valid = true := rfl
@[simp] theorem setCode_mode (c : Nat) (s : State) : (setCode c s).mode = s.mode := rfl
@[simp] theorem setCode_err (c : Nat) (s : State) : (setCode c s).err = s.err := rfl
@[simp] theorem setCode_cmdw (c : Nat) (s : State) : (setCode c s).cmdw = s.cmdw := rfl
@[simp] theorem setCode_argLo (c : Nat) (s : State) : (setCode c s).argLo = s.argLo := rfl
@[simp] theorem setCode_argHi (c : Nat) (s : State) : (setCode c s).argHi = s.argHi := rfl
@[simp] theorem setCode_timestep (c : Nat) (s : State) : (setCode c s).timestep = s.timestep := rfl
@[simp] theorem setCode_keyLen (c : Nat) (s : State) : (setCode c s).keyLen = s.keyLen := rfl
@[simp] theorem setCode_key (c : Nat) (s : State) : (setCode c s).key = s.key := rfl
@[simp] theorem setCode_stream (c : Nat) (s : State) : (setCode c s).stream = s.stream := rfl
@[simp] theorem setCode_kpad (c : Nat) (s : State) : (setCode c s).kpad = s.kpad := rfl
@[simp] theorem setCode_dig (c : Nat) (s : State) : (setCode c s).dig = s.dig := rfl
@[simp] theorem setCode_data (c : Nat) (s : State) : (setCode c s).data = s.data := rfl
@[simp] theorem setCode_code (c : Nat) (s : State) : (setCode c s).code = BitVec.ofNat 32 c := rfl
@[simp] theorem setCode_codeAscii0 (c : Nat) (s : State) : (setCode c s).codeAscii0 = asciiHigh c := rfl
@[simp] theorem setCode_codeAscii1 (c : Nat) (s : State) : (setCode c s).codeAscii1 = asciiLow c := rfl
@[simp] theorem setCode_steps (c : Nat) (s : State) : (setCode c s).steps = s.steps := rfl
@[simp] theorem setCode_rst (c : Nat) (s : State) : (setCode c s).rst = s.rst := rfl
@[simp] theorem setCode_agenda (c : Nat) (s : State) : (setCode c s).agenda = s.agenda := rfl
@[simp] theorem setCode_rdata (c : Nat) (s : State) : (setCode c s).rdata = s.rdata := rfl

@[simp] theorem setSentinel_ie (s : State) : (setSentinel s).ie = s.ie := rfl
@[simp] theorem setSentinel_busy (s : State) : (setSentinel s).busy = s.busy := rfl
@[simp] theorem setSentinel_done (s : State) : (setSentinel s).done = s.done := rfl
@[simp] theorem setSentinel_ovr (s : State) : (setSentinel s).ovr = s.ovr := rfl
@[simp] theorem setSentinel_valid (s : State) : (setSentinel s).valid = false := rfl
@[simp] theorem setSentinel_mode (s : State) : (setSentinel s).mode = s.mode := rfl
@[simp] theorem setSentinel_err (s : State) : (setSentinel s).err = s.err := rfl
@[simp] theorem setSentinel_cmdw (s : State) : (setSentinel s).cmdw = s.cmdw := rfl
@[simp] theorem setSentinel_argLo (s : State) : (setSentinel s).argLo = s.argLo := rfl
@[simp] theorem setSentinel_argHi (s : State) : (setSentinel s).argHi = s.argHi := rfl
@[simp] theorem setSentinel_timestep (s : State) : (setSentinel s).timestep = s.timestep := rfl
@[simp] theorem setSentinel_keyLen (s : State) : (setSentinel s).keyLen = s.keyLen := rfl
@[simp] theorem setSentinel_key (s : State) : (setSentinel s).key = s.key := rfl
@[simp] theorem setSentinel_stream (s : State) : (setSentinel s).stream = s.stream := rfl
@[simp] theorem setSentinel_kpad (s : State) : (setSentinel s).kpad = s.kpad := rfl
@[simp] theorem setSentinel_dig (s : State) : (setSentinel s).dig = s.dig := rfl
@[simp] theorem setSentinel_data (s : State) : (setSentinel s).data = s.data := rfl
@[simp] theorem setSentinel_code (s : State) : (setSentinel s).code = 0 := rfl
@[simp] theorem setSentinel_codeAscii0 (s : State) : (setSentinel s).codeAscii0 = 0x30303030 := rfl
@[simp] theorem setSentinel_codeAscii1 (s : State) : (setSentinel s).codeAscii1 = 0x30300000 := rfl
@[simp] theorem setSentinel_steps (s : State) : (setSentinel s).steps = s.steps := rfl
@[simp] theorem setSentinel_rst (s : State) : (setSentinel s).rst = s.rst := rfl
@[simp] theorem setSentinel_agenda (s : State) : (setSentinel s).agenda = s.agenda := rfl
@[simp] theorem setSentinel_rdata (s : State) : (setSentinel s).rdata = s.rdata := rfl

@[simp] theorem hmacOpen_ie (s : State) : (hmacOpen s).ie = s.ie := by simp only [hmacOpen]
@[simp] theorem hmacOpen_busy (s : State) : (hmacOpen s).busy = s.busy := by simp only [hmacOpen]
@[simp] theorem hmacOpen_done (s : State) : (hmacOpen s).done = s.done := by simp only [hmacOpen]
@[simp] theorem hmacOpen_ovr (s : State) : (hmacOpen s).ovr = s.ovr := by simp only [hmacOpen]
@[simp] theorem hmacOpen_valid (s : State) : (hmacOpen s).valid = s.valid := by simp only [hmacOpen]
@[simp] theorem hmacOpen_mode (s : State) : (hmacOpen s).mode = .hmac := by simp only [hmacOpen]
@[simp] theorem hmacOpen_err (s : State) : (hmacOpen s).err = s.err := by simp only [hmacOpen]
@[simp] theorem hmacOpen_cmdw (s : State) : (hmacOpen s).cmdw = s.cmdw := by simp only [hmacOpen]
@[simp] theorem hmacOpen_argLo (s : State) : (hmacOpen s).argLo = s.argLo := by simp only [hmacOpen]
@[simp] theorem hmacOpen_argHi (s : State) : (hmacOpen s).argHi = s.argHi := by simp only [hmacOpen]
@[simp] theorem hmacOpen_timestep (s : State) : (hmacOpen s).timestep = s.timestep := by simp only [hmacOpen]
@[simp] theorem hmacOpen_keyLen (s : State) : (hmacOpen s).keyLen = s.keyLen := by simp only [hmacOpen]
@[simp] theorem hmacOpen_key (s : State) : (hmacOpen s).key = s.key := by simp only [hmacOpen]
@[simp] theorem hmacOpen_stream (s : State) : (hmacOpen s).stream = openInner (paddedKey (secret s)) := by simp only [hmacOpen]
@[simp] theorem hmacOpen_kpad (s : State) : (hmacOpen s).kpad = paddedKey (secret s) := by simp only [hmacOpen]
@[simp] theorem hmacOpen_dig (s : State) : (hmacOpen s).dig = s.dig := by simp only [hmacOpen]
@[simp] theorem hmacOpen_data (s : State) : (hmacOpen s).data = s.data := by simp only [hmacOpen]
@[simp] theorem hmacOpen_code (s : State) : (hmacOpen s).code = s.code := by simp only [hmacOpen]
@[simp] theorem hmacOpen_codeAscii0 (s : State) : (hmacOpen s).codeAscii0 = s.codeAscii0 := by simp only [hmacOpen]
@[simp] theorem hmacOpen_codeAscii1 (s : State) : (hmacOpen s).codeAscii1 = s.codeAscii1 := by simp only [hmacOpen]
@[simp] theorem hmacOpen_steps (s : State) : (hmacOpen s).steps = s.steps := by simp only [hmacOpen]
@[simp] theorem hmacOpen_rst (s : State) : (hmacOpen s).rst = s.rst := by simp only [hmacOpen]
@[simp] theorem hmacOpen_agenda (s : State) : (hmacOpen s).agenda = s.agenda := by simp only [hmacOpen]
@[simp] theorem hmacOpen_rdata (s : State) : (hmacOpen s).rdata = s.rdata := by simp only [hmacOpen]

@[simp] theorem absorbCounter_ie (c : Word) (s : State) : (absorbCounter c s).ie = s.ie := by simp only [absorbCounter]
@[simp] theorem absorbCounter_busy (c : Word) (s : State) : (absorbCounter c s).busy = s.busy := by simp only [absorbCounter]
@[simp] theorem absorbCounter_done (c : Word) (s : State) : (absorbCounter c s).done = s.done := by simp only [absorbCounter]
@[simp] theorem absorbCounter_ovr (c : Word) (s : State) : (absorbCounter c s).ovr = s.ovr := by simp only [absorbCounter]
@[simp] theorem absorbCounter_valid (c : Word) (s : State) : (absorbCounter c s).valid = s.valid := by simp only [absorbCounter]
@[simp] theorem absorbCounter_mode (c : Word) (s : State) : (absorbCounter c s).mode = s.mode := by simp only [absorbCounter]
@[simp] theorem absorbCounter_err (c : Word) (s : State) : (absorbCounter c s).err = s.err := by simp only [absorbCounter]
@[simp] theorem absorbCounter_cmdw (c : Word) (s : State) : (absorbCounter c s).cmdw = s.cmdw := by simp only [absorbCounter]
@[simp] theorem absorbCounter_argLo (c : Word) (s : State) : (absorbCounter c s).argLo = s.argLo := by simp only [absorbCounter]
@[simp] theorem absorbCounter_argHi (c : Word) (s : State) : (absorbCounter c s).argHi = s.argHi := by simp only [absorbCounter]
@[simp] theorem absorbCounter_timestep (c : Word) (s : State) : (absorbCounter c s).timestep = s.timestep := by simp only [absorbCounter]
@[simp] theorem absorbCounter_keyLen (c : Word) (s : State) : (absorbCounter c s).keyLen = s.keyLen := by simp only [absorbCounter]
@[simp] theorem absorbCounter_key (c : Word) (s : State) : (absorbCounter c s).key = s.key := by simp only [absorbCounter]
@[simp] theorem absorbCounter_stream (c : Word) (s : State) : (absorbCounter c s).stream = absorb (counterBytes c) s.stream := by simp only [absorbCounter]
@[simp] theorem absorbCounter_kpad (c : Word) (s : State) : (absorbCounter c s).kpad = s.kpad := by simp only [absorbCounter]
@[simp] theorem absorbCounter_dig (c : Word) (s : State) : (absorbCounter c s).dig = s.dig := by simp only [absorbCounter]
@[simp] theorem absorbCounter_data (c : Word) (s : State) : (absorbCounter c s).data = s.data := by simp only [absorbCounter]
@[simp] theorem absorbCounter_code (c : Word) (s : State) : (absorbCounter c s).code = s.code := by simp only [absorbCounter]
@[simp] theorem absorbCounter_codeAscii0 (c : Word) (s : State) : (absorbCounter c s).codeAscii0 = s.codeAscii0 := by simp only [absorbCounter]
@[simp] theorem absorbCounter_codeAscii1 (c : Word) (s : State) : (absorbCounter c s).codeAscii1 = s.codeAscii1 := by simp only [absorbCounter]
@[simp] theorem absorbCounter_steps (c : Word) (s : State) : (absorbCounter c s).steps = s.steps := by simp only [absorbCounter]
@[simp] theorem absorbCounter_rst (c : Word) (s : State) : (absorbCounter c s).rst = s.rst := by simp only [absorbCounter]
@[simp] theorem absorbCounter_agenda (c : Word) (s : State) : (absorbCounter c s).agenda = s.agenda := by simp only [absorbCounter]
@[simp] theorem absorbCounter_rdata (c : Word) (s : State) : (absorbCounter c s).rdata = s.rdata := by simp only [absorbCounter]

@[simp] theorem hmacClose_ie (s : State) : (hmacClose s).ie = s.ie := by simp only [hmacClose]
@[simp] theorem hmacClose_busy (s : State) : (hmacClose s).busy = s.busy := by simp only [hmacClose]
@[simp] theorem hmacClose_done (s : State) : (hmacClose s).done = s.done := by simp only [hmacClose]
@[simp] theorem hmacClose_ovr (s : State) : (hmacClose s).ovr = s.ovr := by simp only [hmacClose]
@[simp] theorem hmacClose_valid (s : State) : (hmacClose s).valid = s.valid := by simp only [hmacClose]
@[simp] theorem hmacClose_mode (s : State) : (hmacClose s).mode = .idle := by simp only [hmacClose]
@[simp] theorem hmacClose_err (s : State) : (hmacClose s).err = s.err := by simp only [hmacClose]
@[simp] theorem hmacClose_cmdw (s : State) : (hmacClose s).cmdw = s.cmdw := by simp only [hmacClose]
@[simp] theorem hmacClose_argLo (s : State) : (hmacClose s).argLo = s.argLo := by simp only [hmacClose]
@[simp] theorem hmacClose_argHi (s : State) : (hmacClose s).argHi = s.argHi := by simp only [hmacClose]
@[simp] theorem hmacClose_timestep (s : State) : (hmacClose s).timestep = s.timestep := by simp only [hmacClose]
@[simp] theorem hmacClose_keyLen (s : State) : (hmacClose s).keyLen = s.keyLen := by simp only [hmacClose]
@[simp] theorem hmacClose_key (s : State) : (hmacClose s).key = s.key := by simp only [hmacClose]
@[simp] theorem hmacClose_stream (s : State) : (hmacClose s).stream = (openOuter s.kpad (finalDigest s.stream)).closed := by simp only [hmacClose]
@[simp] theorem hmacClose_kpad (s : State) : (hmacClose s).kpad = zeroBytes 64 := by simp only [hmacClose]
@[simp] theorem hmacClose_dig (s : State) : (hmacClose s).dig = finalDigest (openOuter s.kpad (finalDigest s.stream)) := by simp only [hmacClose]
@[simp] theorem hmacClose_data (s : State) : (hmacClose s).data = s.data := by simp only [hmacClose]
@[simp] theorem hmacClose_code (s : State) : (hmacClose s).code = s.code := by simp only [hmacClose]
@[simp] theorem hmacClose_codeAscii0 (s : State) : (hmacClose s).codeAscii0 = s.codeAscii0 := by simp only [hmacClose]
@[simp] theorem hmacClose_codeAscii1 (s : State) : (hmacClose s).codeAscii1 = s.codeAscii1 := by simp only [hmacClose]
@[simp] theorem hmacClose_steps (s : State) : (hmacClose s).steps = s.steps := by simp only [hmacClose]
@[simp] theorem hmacClose_rst (s : State) : (hmacClose s).rst = s.rst := by simp only [hmacClose]
@[simp] theorem hmacClose_agenda (s : State) : (hmacClose s).agenda = s.agenda := by simp only [hmacClose]
@[simp] theorem hmacClose_rdata (s : State) : (hmacClose s).rdata = s.rdata := by simp only [hmacClose]

@[simp] theorem taken_ie (s : State) : (taken s).ie = s.ie := rfl
@[simp] theorem taken_busy (s : State) : (taken s).busy = s.busy := rfl
@[simp] theorem taken_done (s : State) : (taken s).done = s.done := rfl
@[simp] theorem taken_ovr (s : State) : (taken s).ovr = s.ovr := rfl
@[simp] theorem taken_valid (s : State) : (taken s).valid = s.valid := rfl
@[simp] theorem taken_mode (s : State) : (taken s).mode = s.mode := rfl
@[simp] theorem taken_err (s : State) : (taken s).err = s.err := rfl
@[simp] theorem taken_cmdw (s : State) : (taken s).cmdw = s.cmdw := rfl
@[simp] theorem taken_argLo (s : State) : (taken s).argLo = s.argLo := rfl
@[simp] theorem taken_argHi (s : State) : (taken s).argHi = s.argHi := rfl
@[simp] theorem taken_timestep (s : State) : (taken s).timestep = s.timestep := rfl
@[simp] theorem taken_keyLen (s : State) : (taken s).keyLen = s.keyLen := rfl
@[simp] theorem taken_key (s : State) : (taken s).key = s.key := rfl
@[simp] theorem taken_stream (s : State) : (taken s).stream = s.stream := rfl
@[simp] theorem taken_kpad (s : State) : (taken s).kpad = s.kpad := rfl
@[simp] theorem taken_dig (s : State) : (taken s).dig = s.dig := rfl
@[simp] theorem taken_data (s : State) : (taken s).data = s.data := rfl
@[simp] theorem taken_code (s : State) : (taken s).code = s.code := rfl
@[simp] theorem taken_codeAscii0 (s : State) : (taken s).codeAscii0 = s.codeAscii0 := rfl
@[simp] theorem taken_codeAscii1 (s : State) : (taken s).codeAscii1 = s.codeAscii1 := rfl
@[simp] theorem taken_steps (s : State) : (taken s).steps = s.steps := rfl
@[simp] theorem taken_rst (s : State) : (taken s).rst = s.rst := rfl
@[simp] theorem taken_agenda (s : State) : (taken s).agenda = s.agenda.tail := rfl
@[simp] theorem taken_rdata (s : State) : (taken s).rdata = s.rdata := rfl

@[simp] theorem resetBlock_ie (b : Bool) (s : State) : (resetBlock b s).ie = State.reset.ie := rfl
@[simp] theorem resetBlock_busy (b : Bool) (s : State) : (resetBlock b s).busy = State.reset.busy := rfl
@[simp] theorem resetBlock_done (b : Bool) (s : State) : (resetBlock b s).done = State.reset.done := rfl
@[simp] theorem resetBlock_ovr (b : Bool) (s : State) : (resetBlock b s).ovr = State.reset.ovr := rfl
@[simp] theorem resetBlock_valid (b : Bool) (s : State) : (resetBlock b s).valid = State.reset.valid := rfl
@[simp] theorem resetBlock_mode (b : Bool) (s : State) : (resetBlock b s).mode = State.reset.mode := rfl
@[simp] theorem resetBlock_err (b : Bool) (s : State) : (resetBlock b s).err = State.reset.err := rfl
@[simp] theorem resetBlock_cmdw (b : Bool) (s : State) : (resetBlock b s).cmdw = State.reset.cmdw := rfl
@[simp] theorem resetBlock_argLo (b : Bool) (s : State) : (resetBlock b s).argLo = State.reset.argLo := rfl
@[simp] theorem resetBlock_argHi (b : Bool) (s : State) : (resetBlock b s).argHi = State.reset.argHi := rfl
@[simp] theorem resetBlock_timestep (b : Bool) (s : State) : (resetBlock b s).timestep = State.reset.timestep := rfl
@[simp] theorem resetBlock_keyLen (b : Bool) (s : State) : (resetBlock b s).keyLen = State.reset.keyLen := rfl
@[simp] theorem resetBlock_key (b : Bool) (s : State) : (resetBlock b s).key = State.reset.key := rfl
@[simp] theorem resetBlock_stream (b : Bool) (s : State) : (resetBlock b s).stream = State.reset.stream := rfl
@[simp] theorem resetBlock_kpad (b : Bool) (s : State) : (resetBlock b s).kpad = State.reset.kpad := rfl
@[simp] theorem resetBlock_dig (b : Bool) (s : State) : (resetBlock b s).dig = State.reset.dig := rfl
@[simp] theorem resetBlock_data (b : Bool) (s : State) : (resetBlock b s).data = State.reset.data := rfl
@[simp] theorem resetBlock_code (b : Bool) (s : State) : (resetBlock b s).code = State.reset.code := rfl
@[simp] theorem resetBlock_codeAscii0 (b : Bool) (s : State) : (resetBlock b s).codeAscii0 = State.reset.codeAscii0 := rfl
@[simp] theorem resetBlock_codeAscii1 (b : Bool) (s : State) : (resetBlock b s).codeAscii1 = State.reset.codeAscii1 := rfl
@[simp] theorem resetBlock_steps (b : Bool) (s : State) : (resetBlock b s).steps = State.reset.steps := rfl
@[simp] theorem resetBlock_rst (b : Bool) (s : State) : (resetBlock b s).rst = b := rfl
@[simp] theorem resetBlock_agenda (b : Bool) (s : State) : (resetBlock b s).agenda = s.agenda := rfl
@[simp] theorem resetBlock_rdata (b : Bool) (s : State) : (resetBlock b s).rdata = s.rdata := rfl

end Sys2Proof.Machine
end

