-- ==== Sys2Proof/Laws/Ops.lean ====
section
/-! SUPPORT. One lemma for each shared stream operation: everything `absorb` does to the chaining state, the partial block and
the counters; what `finalize()` leaves; the serialized digest read back. -/

namespace Sys2Proof.Machine

/-! ### The partial block -/

theorem partialBlock_length (st : HashStream) : st.partialBlock.length = st.fill.val := by
  simp [HashStream.partialBlock, Nat.le_of_lt st.fill.isLt]

@[simp] theorem start_partialBlock : HashStream.start.partialBlock = [] := rfl

@[simp] theorem start_fill : HashStream.start.fill = 0 := rfl

@[simp] theorem start_mlen : HashStream.start.mlen = 0 := rfl

@[simp] theorem start_h : HashStream.start.h = initialValue := rfl

/-! ### absorb -/

@[simp] theorem absorb_nil (st : HashStream) : absorb [] st = st := rfl

@[simp] theorem absorb_cons (x : Byte) (S : List Byte) (st : HashStream) : absorb (x :: S) st = absorb S (absorbByte x st) := rfl

/-- Absorbing in two parts is absorbing the whole (R94). -/
theorem absorb_append (S T : List Byte) (st : HashStream) : absorb (S ++ T) st = absorb T (absorb S st) := by
  simp [absorb, List.foldl_append]

theorem absorbByte_mlen (x : Byte) (st : HashStream) : (absorbByte x st).mlen = st.mlen + 1 := by
  unfold absorbByte; dsimp only; split <;> rfl

theorem absorbByte_fill (x : Byte) (st : HashStream) : (absorbByte x st).fill.val = (st.fill.val + 1) % 64 := by
  have := st.fill.isLt
  unfold absorbByte; dsimp only; split
  · simp; omega
  · simp; omega

/-- With room in PBUF a byte is appended to the partial block and H is kept (R91). -/
theorem absorbByte_room (x : Byte) (st : HashStream) (room : st.fill.val + 1 < 64) :
    (absorbByte x st).h = st.h ∧ (absorbByte x st).partialBlock = st.partialBlock ++ [x] := by
  unfold absorbByte; dsimp only; rw [dif_pos room]
  refine ⟨rfl, ?_⟩
  have := st.fill.isLt
  simp only [HashStream.partialBlock, Vector.toList_set]
  rw [List.take_add_one, List.take_set_of_le (Nat.le_refl _), List.getElem?_set_self (by simp)]
  rfl

/-- The byte that fills PBUF has the block compressed and leaves the partial block empty (R91). -/
theorem absorbByte_full (x : Byte) (st : HashStream) (full : ¬ st.fill.val + 1 < 64) :
    (absorbByte x st).h = compress st.h (padTo 64 (st.partialBlock ++ [x])) ∧ (absorbByte x st).partialBlock = [] := by
  unfold absorbByte; dsimp only; rw [dif_neg full]
  refine ⟨?_, by simp [HashStream.partialBlock]⟩
  have h63 : st.fill.val = 63 := by omega
  refine congrArg (compress st.h) ?_
  apply vector_eq_of_toList_eq
  rw [padTo_toList_of_eq (by simp [partialBlock_length, h63])]
  simp only [HashStream.partialBlock, Vector.toList_set, h63]
  have e : st.pbuf.toList.set 63 x = (st.pbuf.toList.set 63 x).take (63 + 1) := by
    rw [List.take_of_length_le (by simp)]
  rw [e, List.take_add_one, List.take_set_of_le (Nat.le_refl _), List.getElem?_set_self (by simp)]
  rfl

theorem absorb_mlen (S : List Byte) (st : HashStream) : (absorb S st).mlen = st.mlen + BitVec.ofNat 64 S.length := by
  induction S generalizing st with
  | nil => simp
  | cons x S ih =>
    rw [absorb_cons, ih, absorbByte_mlen, List.length_cons, BitVec.ofNat_add, BitVec.add_assoc, BitVec.add_comm 1]
    rfl

theorem absorb_fill (S : List Byte) (st : HashStream) : (absorb S st).fill.val = (st.fill.val + S.length) % 64 := by
  have := st.fill.isLt
  induction S generalizing st with
  | nil => simp; omega
  | cons x S ih =>
    have h := absorbByte_fill x st
    rw [absorb_cons, ih _ (absorbByte x st).fill.isLt, h, List.length_cons]; omega

/-! ### Whole blocks -/

theorem blocksOf_of_lt {S : List Byte} (h : S.length < 64) : Reference.blocksOf S = [] := by
  simp [Reference.blocksOf, Nat.div_eq_of_lt h]

/-- The first 64 bytes of a sequence are its first block. -/
theorem blocksOf_append {B : List Byte} (S : List Byte) (h : B.length = 64) :
    Reference.blocksOf (B ++ S) = padTo 64 B :: Reference.blocksOf S := by
  have hn : (B ++ S).length / 64 = S.length / 64 + 1 := by rw [List.length_append, h]; omega
  rw [Reference.blocksOf, hn, List.range_succ_eq_map, List.map_cons, List.map_map]
  refine congrArg₂ _ ?_ ?_
  · apply vector_eq_of_toList_eq
    rw [padTo_toList, padTo_toList_of_eq h]
    simp [h]
  · apply List.map_congr_left
    intro n _
    simp only [Function.comp_apply]
    congr 1
    rw [List.drop_append, List.drop_eq_nil_of_le (by omega), h, List.nil_append, Nat.succ_eq_add_one, Nat.mul_add,
      Nat.mul_one, Nat.add_sub_cancel]

/-- The blocks of a sequence that begins with whole blocks. -/
theorem blocksOf_append_whole (n : Nat) (A T : List Byte) (h : A.length = 64 * n) :
    Reference.blocksOf (A ++ T) = Reference.blocksOf A ++ Reference.blocksOf T := by
  induction n generalizing A T with
  | zero =>
    have : A = [] := List.eq_nil_of_length_eq_zero (by omega)
    subst this; rfl
  | succ n ih =>
    have e : A = A.take 64 ++ A.drop 64 := (List.take_append_drop _ _).symm
    have hl : (A.take 64).length = 64 := by simp; omega
    conv => lhs; rw [e, List.append_assoc, blocksOf_append _ hl, ih _ _ (by simp; omega)]
    conv => rhs; rw [e, blocksOf_append _ hl]
    rfl

/-- Everything `absorb` does: the whole blocks of the waiting bytes and the new ones are compressed in order, the rest waits in
PBUF (R91). -/
theorem absorb_spec (S : List Byte) (st : HashStream) :
    (absorb S st).h = (Reference.blocksOf (st.partialBlock ++ S)).foldl compress st.h ∧
    (absorb S st).partialBlock =
      (st.partialBlock ++ S).drop (64 * ((st.partialBlock ++ S).length / 64)) := by
  induction S generalizing st with
  | nil =>
    have hl : (st.partialBlock ++ []).length < 64 := by simp [partialBlock_length]
    rw [blocksOf_of_lt hl, Nat.div_eq_of_lt hl]; simp
  | cons x S ih =>
    rw [absorb_cons]
    obtain ⟨ih1, ih2⟩ := ih (absorbByte x st)
    rw [ih1, ih2]
    by_cases room : st.fill.val + 1 < 64
    · obtain ⟨h1, h2⟩ := absorbByte_room x st room
      rw [h1, h2, List.append_assoc]; exact ⟨rfl, rfl⟩
    · obtain ⟨h1, h2⟩ := absorbByte_full x st room
      have hB : (st.partialBlock ++ [x]).length = 64 := by
        have := st.fill.isLt
        simp [partialBlock_length]; omega
      have e : st.partialBlock ++ x :: S = (st.partialBlock ++ [x]) ++ S := by simp
      rw [h1, h2, e, blocksOf_append S hB]
      refine ⟨rfl, ?_⟩
      have hn : 64 * ((st.partialBlock ++ [x] ++ S).length / 64) = 64 + 64 * (S.length / 64) := by
        rw [List.length_append, hB]; omega
      rw [hn, List.nil_append, List.drop_append (l₁ := st.partialBlock ++ [x]),
        List.drop_eq_nil_of_le (as := st.partialBlock ++ [x]) (by omega), hB]
      simp

/-! ### finalize -/

@[simp] theorem closed_h (st : HashStream) : st.closed.h = finalState st := by simp only [HashStream.closed]

@[simp] theorem closed_mlen (st : HashStream) : st.closed.mlen = 0 := rfl

@[simp] theorem closed_fill (st : HashStream) : st.closed.fill = 0 := rfl

@[simp] theorem closed_pbuf (st : HashStream) : st.closed.pbuf = zeroBytes 64 := rfl

theorem serialize_toList (h : Vector Word 5) : (serialize h).toList = h.toList.flatMap bytesOfWord :=
  padTo_toList_of_eq (by simp)

/-- DIGESTk = Hk after a stream ends (R42, R93). -/
theorem be32_serialize (h : Vector Word 5) (k : Fin 5) : be32 (serialize h).toList (4 * k.val) = h[k.val] := by
  rw [serialize_toList, be32_flatMap_bytesOfWord _ _ (by simp)]
  simp

/-- Two streams that agree on the chaining state, the count and the waiting bytes have the same final state: stale bytes of PBUF
are read by no rule (R36). -/
theorem finalState_congr {u v : HashStream} (hh : u.h = v.h) (hm : u.mlen = v.mlen) (hp : u.partialBlock = v.partialBlock) :
    finalState u = finalState v := by
  simp only [finalState, HashStream.bitLength, hh, hm, hp]

end Sys2Proof.Machine
end

