-- ==== Sys2Proof/Laws/Exec.lean ====
section
/-! SUPPORT. What a completion can do, said once: a command ends in `complete`, which either writes only ERR, BUSY and DONE or
keeps the command's writes with ERR = OK. -/

namespace Sys2Proof.Machine

@[simp] theorem complete_error (s : State) (e : ErrCode) : complete s (.error e) = finish e s := rfl

@[simp] theorem complete_ok (s s' : State) : complete s (.ok s') = finish .ok s' := rfl

@[simp] theorem secret_length (s : State) : (secret s).length = s.keyLen.val := by
  have := s.keyLen.isLt
  simp [secret]; omega

/-- A secret is at most 32 bytes, so only the second branch of K0 is reached (R101). -/
theorem paddedKey_secret (s : State) : (paddedKey (secret s)).toList = secret s ++ zeros (64 - s.keyLen.val) := by
  have := s.keyLen.isLt
  rw [paddedKey, if_neg (by rw [secret_length]; omega), padTo_toList_of_le (by rw [secret_length]; omega), secret_length]

theorem dataBytes_length (len : Nat) (s : State) : (dataBytes len s).length = min len 64 := by simp [dataBytes]

end Sys2Proof.Machine
end

