-- ==== Sys2Proof/Laws/Bus.lean ====
section
/-! SUPPORT. Where an access goes and what one step can do: the address arithmetic of the window, the register map, and one
inversion lemma for `step`. -/

namespace Sys2Proof.Machine

/-! ### Addresses and offsets -/

theorem base_mod_four : Config.base % 4 = 0 := by
  unfold Config.base; omega

theorem offsetOf_base_add {off : Nat} (h : off < 4096) : offsetOf (Config.base + off) = some off := by
  unfold offsetOf Config.windowSize
  rw [if_pos (by omega)]; congr 1; omega

theorem offsetOf_eq_some {addr off : Nat} (h : offsetOf addr = some off) : addr = Config.base + off ∧ off < 4096 := by
  unfold offsetOf Config.windowSize at h
  split at h
  · cases h; omega
  · cases h

theorem offsetOf_outside {addr : Nat} (h : addr < Config.base ∨ Config.base + 4096 ≤ addr) : offsetOf addr = none := by
  unfold offsetOf Config.windowSize
  rw [if_neg (by omega)]

/-- A register name stands for the offset at which the map has it (R16, R65). -/
theorem regAt_offsetOfReg (r : Reg) : regAt (offsetOfReg r) = r := by
  cases r with
  | h k => revert k; decide
  | digest k => revert k; decide
  | data k => revert k; decide
  | _ => decide

theorem offsetOfReg_lt (r : Reg) : offsetOfReg r < 4096 := by
  cases r <;> simp only [offsetOfReg] <;> omega

/-! ### Accesses -/

/-- An access inside the interface reaches the register at its offset. -/
theorem access_inside {off : Nat} {s : State} (use : Reg → State) (hoff : off < 4096) (h4 : off % 4 = 0)
    (hrst : s.rst = false) : access (Config.base + off) .bits32 s use = .next (use (regAt off)) := by
  simp [access, offsetOf_base_add hoff, hrst, h4]

/-- An access that answers a next state was inside the interface. -/
theorem access_next {addr : Nat} {width : AccessWidth} {s t : State} {use : Reg → State}
    (h : access addr width s use = .next t) :
    ∃ off, addr = Config.base + off ∧ off < 4096 ∧ off % 4 = 0 ∧ width = .bits32 ∧ s.rst = false ∧ t = use (regAt off) := by
  unfold access at h
  split at h
  · cases h
  · rename_i off hoff
    split at h
    · cases h
    · split at h
      · cases h
      · split at h
        · cases h
        · cases h
          exact ⟨off, (offsetOf_eq_some hoff).1, (offsetOf_eq_some hoff).2, by omega, by simpa using ‹¬ width ≠ _›,
            by simpa using ‹¬ s.rst = true›, rfl⟩

theorem hostWrite_guarded_busy {r : Reg} {s : State} (v : Word) (hr : r.guarded = true) (hb : s.busy = true) :
    hostWrite r v s = dropWrite s := by
  cases r <;> simp_all [hostWrite, Reg.guarded]

theorem hostWrite_guarded_idle {r : Reg} {s : State} (v : Word) (hr : r.guarded = true) (hb : s.busy = false) :
    hostWrite r v s = guardedWrite r v s := by
  cases r <;> simp_all [hostWrite, Reg.guarded]

/-- Everything a host write can do (R67). -/
theorem hostWrite_cases (r : Reg) (v : Word) (s : State) :
    (r = .ctrl ∧ hostWrite r v s = writeCtrl v s) ∨
    (r = .status ∧ hostWrite r v s = writeStatus v s) ∨
    (r.guarded = true ∧ s.busy = true ∧ hostWrite r v s = dropWrite s) ∨
    (r.guarded = true ∧ s.busy = false ∧ hostWrite r v s = guardedWrite r v s) ∨
    (r.guarded = false ∧ r ≠ .ctrl ∧ r ≠ .status ∧ hostWrite r v s = s) := by
  cases hb : s.busy <;> cases r <;> simp [hostWrite, Reg.guarded, hb]

/-! ### The step -/

theorem step_nil {s : State} (h : s.agenda = []) : step s = engineTurn s := by simp [step, nextEvent, h]

theorem step_cons {s : State} {e : BusEvent} {rest : List BusEvent} (h : s.agenda = e :: rest) :
    step s = deliver e { s with agenda := rest } := by simp [step, nextEvent, h]

/-- A host write written by its register name does `hostWrite` of that register (R65, R67). -/
theorem step_wr {s : State} {r : Reg} {v : Word} {rest : List BusEvent} (h : s.agenda = wr r v :: rest)
    (hrst : s.rst = false) : step s = .next (hostWrite r v (taken s)) := by
  have h4 : offsetOfReg r % 4 = 0 := by cases r <;> simp only [offsetOfReg] <;> omega
  rw [step_cons h, show { s with agenda := rest } = taken s by simp [taken, h]]
  simp only [wr, deliver, busWrite]
  rw [access_inside _ (offsetOfReg_lt r) h4 (by simpa using hrst), regAt_offsetOfReg]

theorem taken_eq_of_nil {s : State} (h : s.agenda = []) : taken s = s := by
  cases s; simp_all [taken]

/-- When ENGINE's turn comes next the step is that turn. -/
theorem step_engineNext {s : State} (h : engineNext s) : step s = engineTurn (taken s) := by
  rcases h with h | ⟨rest, h⟩
  · rw [step_nil h, taken_eq_of_nil h]
  · rw [step_cons h]; simp [deliver, taken, h]

theorem engineTurn_idle {s : State} (h : s.busy = false) : engineTurn s = .next s := by simp [engineTurn, h]

theorem engineTurn_busy {s : State} (hb : s.busy = true) (hr : s.rst = false) : engineTurn s = completeCommand s := by
  simp [engineTurn, hb, hr]

/-- Everything one step can do when it answers a next state. -/
theorem step_cases {s t : State} (h : step s = .next t) :
    (engineNext s ∧ engineTurn (taken s) = .next t) ∨
    (∃ off rest, s.agenda = .read (Config.base + off) .bits32 :: rest ∧ off < 4096 ∧ off % 4 = 0 ∧ s.rst = false ∧
      t = { taken s with rdata := some (hostRead (regAt off) (taken s)) }) ∨
    (∃ off v rest, s.agenda = .write (Config.base + off) .bits32 v :: rest ∧ off < 4096 ∧ off % 4 = 0 ∧ s.rst = false ∧
      t = hostWrite (regAt off) v (taken s)) ∨
    (∃ rest, s.agenda = .assertRst :: rest ∧ t = assertReset (taken s)) ∨
    (∃ rest, s.agenda = .releaseRst :: rest ∧ t = releaseReset (taken s)) := by
  cases ha : s.agenda with
  | nil => exact .inl ⟨.inl ha, by rw [← step_engineNext (.inl ha)]; exact h⟩
  | cons e rest =>
    have htk : { s with agenda := rest } = taken s := by simp [taken, ha]
    rw [step_cons ha, htk] at h
    cases e with
    | engine => exact .inl ⟨.inr ⟨rest, ha⟩, h⟩
    | read addr width =>
      simp only [deliver, busRead] at h
      obtain ⟨off, rfl, h1, h2, rfl, h3, rfl⟩ := access_next h
      exact .inr (.inl ⟨off, rest, rfl, h1, h2, h3, rfl⟩)
    | write addr width v =>
      simp only [deliver, busWrite] at h
      obtain ⟨off, rfl, h1, h2, rfl, h3, rfl⟩ := access_next h
      exact .inr (.inr (.inl ⟨off, v, rest, rfl, h1, h2, h3, rfl⟩))
    | assertRst => cases h; exact .inr (.inr (.inr (.inl ⟨rest, rfl, rfl⟩)))
    | releaseRst => cases h; exact .inr (.inr (.inr (.inr ⟨rest, rfl, rfl⟩)))

end Sys2Proof.Machine
end

