-- ==== Sys2Proof/Laws/Decode.lean ====
section
/-! SUPPORT. The three fields of a command word: as numbers, put together, and taken apart again (R57). -/

namespace Sys2Proof

theorem opField_toNat (w : Word) : (opField w).toNat = w.toNat % 256 := by
  simp [opField, BitVec.extractLsb'_toNat]

theorem lenField_toNat (w : Word) : (lenField w).toNat = w.toNat / 256 % 128 := by
  simp [lenField, BitVec.extractLsb'_toNat, Nat.shiftRight_eq_div_pow]

theorem rsvField_toNat (w : Word) : (rsvField w).toNat = w.toNat / 2 ^ 15 := by
  have := w.isLt
  simp only [rsvField, BitVec.extractLsb'_toNat, Nat.shiftRight_eq_div_pow]
  exact Nat.mod_eq_of_lt (by omega)

/-- A word is its three fields. -/
theorem word_eq_fields (w : Word) : w = rsvField w ++ lenField w ++ opField w := by
  apply BitVec.eq_of_getLsbD_eq
  intro i hi
  simp only [BitVec.getLsbD_append, rsvField, lenField, opField, BitVec.getLsbD_extractLsb']
  split
  · simp [*]
  · split
    · simp [*, show 8 + (i - 8) = i by omega]
    · simp [show i - 8 - 7 < 17 by omega, show 15 + (i - 8 - 7) = i by omega]

theorem opField_append (r : BitVec 17) (l : BitVec 7) (o : BitVec 8) : opField (r ++ l ++ o) = o := by
  apply BitVec.eq_of_getLsbD_eq
  intro i hi
  simp only [opField, BitVec.getLsbD_extractLsb', BitVec.getLsbD_append]
  simp [hi]

theorem lenField_append (r : BitVec 17) (l : BitVec 7) (o : BitVec 8) : lenField (r ++ l ++ o) = l := by
  apply BitVec.eq_of_getLsbD_eq
  intro i hi
  simp only [lenField, BitVec.getLsbD_extractLsb', BitVec.getLsbD_append]
  simp [hi]

theorem rsvField_append (r : BitVec 17) (l : BitVec 7) (o : BitVec 8) : rsvField (r ++ l ++ o) = r := by
  apply BitVec.eq_of_getLsbD_eq
  intro i hi
  simp only [rsvField, BitVec.getLsbD_extractLsb', BitVec.getLsbD_append]
  simp [hi, show ¬ 15 + i < 8 by omega, show ¬ 15 + i - 8 < 7 by omega, show 15 + i - 8 - 7 = i by omega]

end Sys2Proof
end

