-- ==== Sys2Proof/Laws/PerInstr.lean ====
section
/-! SUPPORT. What holds of every command as syntax, one lemma per constructor. Family EncodeInRow: the word of a well-formed
command is accepted by the row of R62 that carries its mnemonic, and by no other. -/

namespace Sys2Proof.Laws.EncodeInRow

/-- The rows of R62 that accept the command's word are exactly one, the row with its mnemonic. -/
def Statement (i : Instr) : Prop :=
  i.wellFormed = true →
    (opcodeRows.filter fun r => r.accepts (encode i)).map OpcodeRow.mnemonic = [mnemonicOf i]

/-- The commands that take a LEN, at each of its 128 values. -/
theorem withLen (len : Nat) (h : len < 128) :
    (opcodeRows.filter fun r => r.accepts (encode (.shaUpdate len))).map OpcodeRow.mnemonic = ["SHA_UPDATE"] ∧
    (opcodeRows.filter fun r => r.accepts (encode (.setSecret len))).map OpcodeRow.mnemonic = ["SET_SECRET"] := by
  revert len; decide +kernel

theorem nop : Statement .nop := fun _ => by decide

theorem shaInit : Statement .shaInit := fun _ => by decide

theorem shaCompress : Statement .shaCompress := fun _ => by decide

theorem shaUpdate (len : Nat) : Statement (.shaUpdate len) := fun h => (withLen len (of_decide_eq_true h)).1

theorem shaFinal : Statement .shaFinal := fun _ => by decide

theorem setSecret (len : Nat) : Statement (.setSecret len) := fun h => (withLen len (of_decide_eq_true h)).2

theorem hmacInit : Statement .hmacInit := fun _ => by decide

theorem hmacFinal : Statement .hmacFinal := fun _ => by decide

theorem setTimestep : Statement .setTimestep := fun _ => by decide

theorem totpSteps : Statement .totpSteps := fun _ => by decide

theorem totpTime : Statement .totpTime := fun _ => by decide

theorem truncate : Statement .truncate := fun _ => by decide

end Sys2Proof.Laws.EncodeInRow
end

