-- ==== Sys2Proof/Tests/Slice0.lean ====
section
/-! SUPPORT. Tests on values the spec gives (95_test_vectors.md, and the rules cited beside each), and a witness for the
hypotheses of every statement. -/

namespace Sys2Proof.Tests

open Sys2Proof.Machine

/-! ### WellFormed: the one check, on terms it refuses -/

theorem test_len_128_is_refused : Instr.wellFormed (.shaUpdate 128) = false := by decide

theorem test_secret_len_128_is_refused : Instr.wellFormed (.setSecret 128) = false := by decide

theorem test_len_127_fits : Instr.wellFormed (.shaUpdate 127) = true ∧ Instr.wellFormed (.setSecret 127) = true := by decide

/-! ### Decoding: words written out from R57 and R62 (bits 31:15 RSV, 14:8 LEN, 7:0 OP) -/

theorem test_decode_nop : decode 0b00000000000000000000000000000000 = .ok .nop := by decide

theorem test_decode_shaInit : decode 0b00000000000000000000000000000001 = .ok .shaInit := by decide

theorem test_decode_shaCompress : decode 0b00000000000000000000000000000010 = .ok .shaCompress := by decide

/-- LEN = 43 = 0101011. -/
theorem test_decode_shaUpdate : decode 0b00000000000000000010101100000011 = .ok (.shaUpdate 43) := by decide

theorem test_decode_shaFinal : decode 0b00000000000000000000000000000100 = .ok .shaFinal := by decide

/-- LEN = 20 = 0010100. -/
theorem test_decode_setSecret : decode 0b00000000000000000001010000010000 = .ok (.setSecret 20) := by decide

theorem test_decode_hmacInit : decode 0b00000000000000000000000000010001 = .ok .hmacInit := by decide

theorem test_decode_hmacFinal : decode 0b00000000000000000000000000010010 = .ok .hmacFinal := by decide

theorem test_decode_setTimestep : decode 0b00000000000000000000000000100000 = .ok .setTimestep := by decide

theorem test_decode_totpSteps : decode 0b00000000000000000000000000100001 = .ok .totpSteps := by decide

theorem test_decode_totpTime : decode 0b00000000000000000000000000100010 = .ok .totpTime := by decide

theorem test_decode_truncate : decode 0b00000000000000000000000000100011 = .ok .truncate := by decide

/-- R63's cases: an undefined OP, a LEN on NOP, and the lowest and the highest bit of RSV. -/
theorem test_decode_illegal :
    decode 0x00000005 = .error .reservedOpcode ∧ decode 0x000000FF = .error .reservedOpcode ∧
    decode 0x00000100 = .error .strayLen ∧ decode 0x00008003 = .error .reservedBits ∧
    decode 0x80000000 = .error .reservedBits := by decide

/-- Encode gives the words of R65's examples. -/
theorem test_encode_words : encode (.shaUpdate 43) = 0x00002B03 ∧ encode (.setSecret 20) = 0x00001410 ∧
    encode .truncate = 0x00000023 := by decide

/-! ### One step of each command -/

/-- A field of the state a result goes on in. -/
def fieldOf {α : Type} (f : State → α) : Result → Option α
  | .next s => some (f s)
  | .fault _ => none
  | .refused _ => none

/-- The bytes of a text of ASCII characters. -/
def ascii (text : String) : List Byte := text.toList.map fun c => BitVec.ofNat 8 c.toNat

/-- A buffer with the given first bytes. -/
def buffer (S : List Byte) : Vector Byte 64 := padTo 64 S

/-- The block with the secret of RFC 4226's vectors, "12345678901234567890". -/
def keyed : State :=
  { State.reset with key := padTo 32 (ascii "12345678901234567890"), keyLen := 20 }

/-- A plain stream open with `S` absorbed. -/
def hashing (S : List Byte) : State := { State.reset with mode := .hash, stream := absorb S HashStream.start }

/-- The key "key" (R107's example). -/
def keyKey : State := { State.reset with key := padTo 32 (ascii "key"), keyLen := 3 }

/-- A keyed stream open under "key" with `S` absorbed. -/
def maccing (S : List Byte) : State :=
  let opened := hmacOpen keyKey
  { opened with stream := absorb S opened.stream }

/-- STATUS after NOP from reset (R77). -/
theorem test_nop_status : fieldOf statusWord (exec .nop State.reset) = some 0x00000002 := by decide

/-- H after SHA_INIT (R98's example); MODE = HASH. -/
theorem test_shaInit : fieldOf (fun s => (s.stream.h, statusWord s)) (exec .shaInit keyed) =
    some (#v[0x67452301, 0xEFCDAB89, 0x98BADCFE, 0x10325476, 0xC3D2E1F0], 0x0000002A) := by decide

/-- T1.3: the compression of zeros from H = 0. -/
theorem test_shaCompress_from_reset : fieldOf (fun s => s.stream.h) (exec .shaCompress State.reset) =
    some #v[0x9E1547ED, 0x57EC91C2, 0x30FA8BC8, 0xC7785A54, 0xA7EFA5E3] := by decide +kernel

/-- T1.4: every addition wraps. -/
theorem test_shaCompress_wraps : fieldOf (fun s => s.stream.h) (exec .shaCompress { State.reset with
      stream := { HashStream.reset with h := Vector.replicate 5 0xFFFFFFFF }, data := Vector.replicate 64 0xFF }) =
    some #v[0x3F48159B, 0x2DCE51FA, 0x8A1E930A, 0x02083B68, 0xEF70D6E8] := by decide +kernel

/-- A 64th byte compresses and leaves FILL = 0 (R91, R99); SHA_UPDATE 65 gives BADLEN (R99). -/
theorem test_shaUpdate_fills : fieldOf (fun s => (s.stream.fill, s.stream.mlen, s.err))
    (exec (.shaUpdate 1) (hashing (List.replicate 63 0x61))) = some (0, 64, .ok) := by decide +kernel

theorem test_shaUpdate_badlen : fieldOf statusWord (exec (.shaUpdate 65) (hashing [])) = some 0x00000322 := by decide

/-- P1: the digest of "abc". -/
theorem test_shaFinal_abc : fieldOf (fun s => [s.stream.h[0], s.stream.h[4], be32 s.dig.toList 0, be32 s.dig.toList 16])
    (exec .shaFinal (hashing (ascii "abc"))) = some [0xA9993E36, 0x9CD0D89D, 0xA9993E36, 0x9CD0D89D] := by decide +kernel

/-- The 56-byte message of T2: the length goes into a second block. -/
theorem test_shaFinal_two_blocks : fieldOf (fun s => [be32 s.dig.toList 0, be32 s.dig.toList 16])
    (exec .shaFinal (hashing (List.replicate 56 0x61))) = some [0xC2DB330F, 0x201BE699] := by
  decide +kernel

/-- SET_SECRET 3 (R105): the bytes beyond LEN do not enter KEY, and DATA is cleared. -/
theorem test_setSecret : fieldOf (fun s => (s.key.toList.take 4, s.keyLen, s.data.toList.take 4, s.err))
    (exec (.setSecret 3) { State.reset with data := buffer (ascii "keys") }) =
    some ([0x6B, 0x65, 0x79, 0x00], 3, [0, 0, 0, 0], .ok) := by decide

/-- HMAC_INIT without a secret gives NOKEY (R107). -/
theorem test_hmacInit_nokey : fieldOf statusWord (exec .hmacInit State.reset) = some 0x00000402 := by decide

/-- HMAC_INIT under "key": one block absorbed, MODE = HMAC, KEYSET (R107's example). -/
theorem test_hmacInit_key : fieldOf (fun s => (s.stream.mlen, s.stream.fill, statusWord s)) (exec .hmacInit keyKey) =
    some (64, 0, 0x0000004A) := by decide +kernel

/-- T3: HMAC of "The quick brown fox jumps over the lazy dog" under "key". -/
theorem test_hmacFinal : fieldOf (fun s => [be32 s.dig.toList 0, be32 s.dig.toList 16])
    (exec .hmacFinal (maccing (ascii "The quick brown fox jumps over the lazy dog"))) =
    some [0xDE7C9B85, 0x1C9DB4D9] := by decide +kernel

/-- SET_TIMESTEP 0 gives BADSTEP and keeps the step (R114). -/
theorem test_setTimestep_zero : fieldOf (fun s => (s.timestep, s.err)) (exec .setTimestep State.reset) =
    some (30, .badstep) := by decide

theorem test_setTimestep_sixty : fieldOf (fun s => (s.timestep, s.err))
    (exec .setTimestep { State.reset with argLo := 60 }) = some (60, .ok) := by decide

/-- RFC 4226 count 0, code 755224 (T4): a step count of 0 is hashed. -/
theorem test_totpSteps_zero : fieldOf (fun s => (s.code.toNat, s.codeAscii0, s.codeAscii1, statusWord s))
    (exec .totpSteps keyed) = some (755224, 0x37353532, 0x32340000, 0x0000001A) := by decide +kernel

/-- No secret: the sentinel (R113). -/
theorem test_totpSteps_sentinel : fieldOf (fun s => (s.codeAscii0, s.codeAscii1, statusWord s))
    (exec .totpSteps State.reset) = some (0x30303030, 0x30300000, 0x00000002) := by decide

/-- P3: T = 59 gives step 1, code 287082. -/
theorem test_totpTime_59 : fieldOf (fun s => (s.steps, s.code.toNat, be32 s.dig.toList 0))
    (exec .totpTime { keyed with argLo := 59 }) = some (1, 287082, 0x75A48A19) := by decide +kernel

/-- A timestamp of 0 gives the sentinel although a secret is configured (R116). -/
theorem test_totpTime_zero : fieldOf statusWord (exec .totpTime keyed) = some 0x0000000A := by decide

/-- T4.5, third row: offset 15 reads bytes 15..18. -/
theorem test_truncate_offset_15 : fieldOf (fun s => (s.code.toNat, s.valid))
    (exec .truncate { State.reset with dig := padTo 20 (List.replicate 15 0 ++ [0xFF, 0xFF, 0xFF, 0xFF, 0x0F]) }) =
    some (483647, true) := by decide

/-- T4.6: the digest of "abc", without a secret. -/
theorem test_truncate_abc : fieldOf (fun s => (s.code.toNat, s.codeAscii0, s.codeAscii1, statusWord s))
    (exec .truncate { State.reset with
      dig := serialize #v[0xA9993E36, 0x4706816A, 0xBA3E2571, 0x7850C26C, 0x9CD0D89D] }) =
    some (919068, 0x39313930, 0x36380000, 0x00000012) := by decide

/-! ### Steps of the machine -/

/-- A read of ID through the bus (R17, R66). -/
theorem test_read_id : step { State.reset with agenda := [rd .id] } =
    .next { State.reset with rdata := some 0x53484131 } := by
  rw [step_cons rfl]
  simp only [rd, deliver, busRead]
  rw [access_inside _ (by decide) (by decide) rfl]; rfl

/-- A host write to H while BUSY = 1 is dropped with OVR (R68). -/
theorem test_write_busy : hostWrite (.h 0) 5 { State.reset with busy := true } =
    { State.reset with busy := true, ovr := true } := by decide

/-- DATA is packed big-endian (R42). -/
theorem test_write_data : (hostWrite (.data 1) 0x61626364 State.reset).data.toList.take 9 =
    [0, 0, 0, 0, 0x61, 0x62, 0x63, 0x64, 0] := by decide

/-- The word of SET_TIMESTEP placed after reset runs as the next step: BADSTEP (R114). -/
theorem test_fetch_word : fieldOf (fun s => (s.err, s.busy, s.done)) (step (State.reset.withFetchWord 32 0x20)) =
    some (.badstep, false, true) := by decide

/-- P5: an illegal word completes with BADOP (R63). -/
theorem test_illegal_word : fieldOf statusWord (step (State.reset.withFetchWord 32 0x05)) = some 0x00000102 := by decide

/-! ### Witnesses: states and operands that meet the hypotheses of each statement, its clauses at their boundaries -/

/-- A state with the given command word in flight and ENGINE's turn next. -/
def inFlight (w : Word) (s : State) : State := s.withFetchWord 32 w.toNat

theorem engineNext_inFlight (w : Word) (s : State) : engineNext (inFlight w s) := .inr ⟨s.agenda, rfl⟩

theorem witness_DecodingFollowsTheMatchAndMaskRows :
    (∃ r ∈ opcodeRows, r.accepts 0x00007F03 = true ∧ r.mnemonic = "SHA_UPDATE") ∧
    decode 0x00007F03 = .ok (.shaUpdate 127) ∧ lenOf (.shaUpdate 127) = 127 := by decide

/-- Each of the three cases of R63: OP, RSV, LEN. -/
theorem witness_IllegalWordsCompleteWithBadop :
    illegalWord 0x00000005 ∧ illegalWord 0x00008003 ∧ illegalWord 0x00000101 ∧ ¬ illegalWord 0x00007F10 ∧
    ∃ s : State, s.busy = true ∧ s.rst = false ∧ engineNext s ∧ illegalWord s.cmdw := by
  unfold illegalWord
  exact ⟨by decide, by decide, by decide, by decide, inFlight 0x05 .reset, rfl, rfl, engineNext_inFlight _ _, by decide⟩

theorem witness_DecodeOfEncodeIsTheCommand :
    Instr.wellFormed (.shaUpdate 127) = true ∧ Instr.wellFormed (.setSecret 0) = true ∧ Instr.wellFormed .nop = true := by
  decide

theorem witness_EncodeOfDecodeIsTheWord : decode 0x00007F10 = .ok (.setSecret 127) := by decide

theorem witness_StepRunsTheDecodedCommand :
    (∃ (s : State) (i : Instr), s.busy = true ∧ s.rst = false ∧ engineNext s ∧ decode s.cmdw = .ok i) ∧
    decodeTableWord 32 0x00002B03 = some (.shaUpdate 43) :=
  ⟨⟨inFlight 0x10 .reset, .setSecret 0, rfl, rfl, engineNext_inFlight _ _, by decide⟩, by decide⟩

theorem witness_EngineCompletesExactlyWhenBusy :
    (State.reset.busy = false ∧ engineNext State.reset) ∧
    (∃ s : State, s.busy = true ∧ s.rst = false ∧ engineNext s ∧ ∀ i, decode s.cmdw ≠ .ok i) ∧
    (∃ s : State, s.busy = true ∧ s.rst = false ∧ engineNext s ∧ decode s.cmdw = .ok .truncate) := by
  refine ⟨⟨rfl, .inl rfl⟩, ⟨inFlight 0x05 .reset, rfl, rfl, engineNext_inFlight _ _, ?_⟩,
    ⟨inFlight 0x23 .reset, rfl, rfl, engineNext_inFlight _ _, by decide⟩⟩
  intro i h
  have : decode 0x05 = .ok i := h
  rw [show decode 0x05 = .error .reservedOpcode from by decide] at this
  cases this

/-- Every code, at the boundaries of LEN, KEYLEN and MODE. -/
theorem witness_ErrCodeOfEveryCommand :
    fieldOf State.err (exec .nop .reset) = some .ok ∧
    fieldOf State.err (exec (.shaUpdate 127) .reset) = some .seq ∧
    fieldOf State.err (exec (.shaUpdate 64) (hashing [])) = some .ok ∧
    fieldOf State.err (exec (.shaUpdate 65) (hashing [])) = some .badlen ∧
    fieldOf State.err (exec .shaFinal .reset) = some .seq ∧
    fieldOf State.err (exec .hmacFinal (hashing [])) = some .seq ∧
    fieldOf State.err (exec (.setSecret 0) .reset) = some .badlen ∧
    fieldOf State.err (exec (.setSecret 32) .reset) = some .ok ∧
    fieldOf State.err (exec (.setSecret 33) .reset) = some .badlen ∧
    fieldOf State.err (exec .hmacInit .reset) = some .nokey ∧
    fieldOf State.err (exec .setTimestep .reset) = some .badstep ∧
    decode 0x05 = .error .reservedOpcode := by decide +kernel

theorem witness_CommandsKeepWhatTheirRowDoesNotList :
    (∃ t, exec .nop State.reset = .next t) ∧ (∃ t, exec (.setSecret 32) State.reset = .next t) ∧
    (∃ t, exec .shaCompress State.reset = .next t) := ⟨⟨_, rfl⟩, ⟨_, rfl⟩, ⟨_, rfl⟩⟩

/-- Both ways in which KEYLEN changes. -/
theorem witness_OnlySetSecretOrResetChangesTheSecret :
    fieldOf State.keyLen (step (inFlight 0x00002010 .reset)) = some 32 ∧ State.reset.keyLen ≠ 32 ∧
    fieldOf State.keyLen (step { keyed with agenda := [.assertRst] }) = some 0 ∧ keyed.keyLen ≠ 0 := by decide

theorem witness_NopOnlyCompletes : decode 0 = .ok .nop ∧ (opField 0x80000000 = 0 ∧ (0x80000000 : Word) ≠ 0) ∧ ∃ t, exec .nop State.reset = .next t :=
  ⟨by decide, by decide, ⟨_, rfl⟩⟩

/-- The schedule and the trace of the compression of a block of zeros. -/
theorem witness_CompressionFollowsScheduleAndRounds :
    isSchedule (zeroBytes 64) (fun i => (schedule (zeroBytes 64)).getD i 0) ∧
    isRoundTrace initialValue (fun i => (schedule (zeroBytes 64)).getD i 0)
      (fun t => runRounds 0 ((schedule (zeroBytes 64)).take t) (workingOf initialValue)) := by
  unfold isSchedule isRoundTrace
  decide +kernel

theorem witness_ChooseAndMajorityHaveTheirOtherForms : (19 : Nat) < 20 ∧ 40 ≤ (59 : Nat) ∧ (59 : Nat) < 60 := by decide

theorem witness_ShaInitStartsAPlainStream : ∃ t, exec .shaInit State.reset = .next t := ⟨_, rfl⟩

theorem witness_AbsorbCompressesEveryFullBlock :
    (∃ st : HashStream, st.fill.val < 63 ∧ st.fill.val = 62) ∧
    ∃ (st : HashStream) (block : Vector Byte 64), st.fill.val = 63 ∧ block.toList = st.pbuf.toList.take 63 ++ [0x80] :=
  ⟨⟨{ HashStream.start with fill := 62 }, by decide⟩,
    { HashStream.start with fill := 63 }, padTo 64 (zeros 63 ++ [0x80]), by decide⟩

theorem witness_EmptyMessageDigest : ∃ block : Vector Byte 64, block.toList = [0x80] ++ List.replicate 63 0 :=
  ⟨padTo 64 [0x80], by decide⟩

theorem witness_ShaUpdateAbsorbsTheFirstLenBytes :
    State.reset.mode = .idle ∧ ((hashing []).mode ≠ .idle ∧ 64 < 65) ∧
    ((hashing []).mode ≠ .idle ∧ 63 ≤ 64 ∧ (hashing []).stream.fill.val + 63 < 64) := by decide

/-- The last length with one padding block, the first and the last with two. -/
theorem witness_FinalizationPadsAsTheLayoutTable :
    (∃ (st : HashStream) (last : Vector Byte 64), st.fill.val = 55 ∧
      last.toList = st.pbuf.toList.take 55 ++ [0x80] ++ List.replicate 0 0 ++
        bytesOfDWord (BitVec.ofNat 64 (8 * st.mlen.toNat))) ∧
    (∃ (st : HashStream) (first last : Vector Byte 64), st.fill.val = 56 ∧
      first.toList = st.pbuf.toList.take 56 ++ [0x80] ++ List.replicate 7 0 ∧
      last.toList = List.replicate 56 0 ++ bytesOfDWord (BitVec.ofNat 64 (8 * st.mlen.toNat))) ∧
    (∃ (st : HashStream) (first last : Vector Byte 64), st.fill.val = 63 ∧
      first.toList = st.pbuf.toList.take 63 ++ [0x80] ++ List.replicate 0 0 ∧
      last.toList = List.replicate 56 0 ++ bytesOfDWord (BitVec.ofNat 64 (8 * st.mlen.toNat))) := by
  refine ⟨⟨{ HashStream.start with fill := 55, mlen := 55 }, padTo 64 (zeros 55 ++ [0x80] ++ bytesOfDWord 440), rfl, ?_⟩,
    ⟨{ HashStream.start with fill := 56, mlen := 56 }, padTo 64 (zeros 56 ++ [0x80]),
      padTo 64 (zeros 56 ++ bytesOfDWord 448), rfl, ?_, ?_⟩,
    ⟨{ HashStream.start with fill := 63, mlen := 63 }, padTo 64 (zeros 63 ++ [0x80]),
      padTo 64 (zeros 56 ++ bytesOfDWord 504), rfl, ?_, ?_⟩⟩ <;> decide

theorem witness_ShaFinalPublishesTheDigest : State.reset.mode ≠ .hash ∧ (hashing []).mode = .hash := by decide

/-- Chunks of 64, 0 and 1 bytes. -/
theorem witness_StreamedDigestDoesNotDependOnTheSplit :
    legalChunks [(zeroBytes 64, 64), (zeroBytes 64, 0), (zeroBytes 64, 1)] = true := by decide

theorem witness_SetSecretOverwritesTheKeyAndClearsData :
    (0 = 0 ∨ 32 < 0) ∧ (33 = 0 ∨ 32 < 33) ∧ (1 ≤ 1 ∧ 1 ≤ 32) ∧ (1 ≤ 32 ∧ 32 ≤ 32) := by decide

theorem witness_HmacInitLatchesTheKeyAndAbsorbsTheInnerPad :
    State.reset.keyLen = 0 ∧ keyed.keyLen ≠ 0 ∧
    ∃ innerBlock : Vector Byte 64, innerBlock.toList = (hmacOpen keyed).kpad.toList.map (· ^^^ 0x36) :=
  ⟨rfl, by decide, (hmacOpen keyed).kpad.map (· ^^^ 0x36), Vector.toList_map⟩

theorem witness_HmacFinalPublishesTheOuterHash : (hashing []).mode ≠ .hmac ∧ (hmacOpen keyed).mode = .hmac := by decide

theorem witness_StreamedMacIsTheHmacOfTheSecret :
    keyed.keyLen ≠ 0 ∧ legalChunks [(zeroBytes 64, 64), (zeroBytes 64, 0)] = true := by decide

theorem witness_SetTimestepRejectsZero : State.reset.argLo = 0 ∧ { State.reset with argLo := 1 }.argLo ≠ 0 := by decide

theorem witness_TruncationSpellsItsBytesAndDigits : (0 : Nat) < 1000000 ∧ (999999 : Nat) < 1000000 := by decide

theorem witness_SentinelPathWritesNothingElse :
    State.reset.keyLen = 0 ∧ keyed.keyLen ≠ 0 ∧ keyed.argHi = 0 ∧ keyed.argLo = 0 := by decide

theorem witness_TotpStepsHashesTheCounter : keyed.keyLen ≠ 0 ∧ keyed.argLo = 0 := by decide

/-- A timestamp of 1, and one of 2^32 whose low word is 0. -/
theorem witness_TotpTimeHashesTheStepOfTheTimestamp :
    (∃ s : State, s.keyLen ≠ 0 ∧ s.timestep ≠ 0 ∧ s.argHi = 0 ∧ s.argLo = 1) ∧
    (∃ s : State, s.keyLen ≠ 0 ∧ s.timestep ≠ 0 ∧ s.argHi = 1 ∧ s.argLo = 0) :=
  ⟨⟨{ keyed with argLo := 1 }, by decide⟩, ⟨{ keyed with argHi := 1 }, by decide⟩⟩

/-- Both commands: the counter 0 from ARG_LO, and from the timestamp 29 (T4.4). -/
theorem witness_TotpStepsEqualsTheKeyedStream :
    keyed.keyLen ≠ 0 ∧ (zeroBytes 64).toList.take 8 = [0, 0, 0, 0] ++ bytesOfWord keyed.argLo ∧
    ∃ s : State, s.keyLen ≠ 0 ∧ (s.argHi ≠ 0 ∨ s.argLo ≠ 0) ∧ s.timestep ≠ 0 ∧
      (zeroBytes 64).toList.take 8 = [0, 0, 0, 0] ++
        bytesOfWord (BitVec.ofNat 32 ((s.argHi.toNat * 2 ^ 32 + s.argLo.toNat) / s.timestep.toNat)) :=
  ⟨by decide, by decide, { keyed with argLo := 29 }, by decide, .inr (by decide), by decide, by decide⟩

/-- T4.4: the step of 30 seconds, its first and last timestamps 30 and 59, and the next at 60. -/
theorem witness_TotpTimeIsConstantWithinAStep :
    keyed.timestep ≠ 0 ∧ (30 : DWord) ≠ 0 ∧ (30 : DWord).toNat % keyed.timestep.toNat = 0 ∧
    ((30 : DWord).toNat ≤ (30 : DWord).toNat ∧ (30 : DWord).toNat < (30 : DWord).toNat + keyed.timestep.toNat) ∧
    ((30 : DWord).toNat ≤ (59 : DWord).toNat ∧ (59 : DWord).toNat < (30 : DWord).toNat + keyed.timestep.toNat) ∧
    (60 : DWord).toNat = (30 : DWord).toNat + keyed.timestep.toNat ∧ keyed.keyLen ≠ 0 := by decide

/-- P4's call: the time 59 and a window of 1. -/
theorem witness_VerifierAcceptsExactlyTheWindowCodes :
    keyed.busy = false ∧ keyed.rst = false ∧ keyed.timestep ≠ 0 ∧
    (59 : Int) + 1 * (keyed.timestep.toNat : Int) < 2 ^ 64 := by decide

/-- The first and the last offset of the window. -/
theorem witness_HostReadReturnsTheListedValues : ∀ off ∈ [0x000, 0xFFC],
    off < 4096 ∧ off % 4 = 0 ∧ State.reset.rst = false ∧
    ∃ s : State, s.rst = false ∧ s.agenda = .read (Config.base + off) .bits32 :: [] := by
  intro off h
  simp only [List.mem_cons, List.not_mem_nil, or_false] at h
  obtain rfl | rfl := h
  all_goals exact ⟨by decide, by decide, rfl, { State.reset with agenda := [.read (Config.base + _) .bits32] }, rfl, rfl⟩

/-- Every clause of `windowWrite`, at the first and last offset of each range, and just outside. -/
theorem witness_HostWriteDoesWhatItsCaseSays :
    (∀ off ∈ [0x010, 0x014, 0x018, 0x040, 0x050, 0x080, 0x0BC], off < 4096 ∧ off % 4 = 0 ∧ guardedOffset off) ∧
    (∀ off ∈ [0x000, 0x00C, 0x01C, 0x03C, 0x054, 0x07C, 0x0C0, 0xFFC], off < 4096 ∧ off % 4 = 0 ∧ ¬ guardedOffset off) ∧
    ∃ s : State, s.rst = false ∧ s.busy = true ∧ s.agenda = .write (Config.base + 0x0BC) .bits32 5 :: [] := by
  unfold guardedOffset
  exact ⟨by decide, by decide,
    { State.reset with busy := true, agenda := [.write (Config.base + 0x0BC) .bits32 5] }, rfl, rfl, rfl⟩

theorem witness_AcceptanceAndDroppedWrites :
    (∃ s : State, s.rst = false ∧ s.busy = false ∧ s.agenda = .write (Config.base + 0x010) .bits32 5 :: []) ∧
    (guardedOffset 0x080 ∧ 0x080 % 4 = 0 ∧
      ∃ s : State, s.rst = false ∧ s.busy = true ∧ s.agenda = .write (Config.base + 0x080) .bits32 5 :: []) := by
  unfold guardedOffset
  exact ⟨⟨{ State.reset with agenda := [.write (Config.base + 0x010) .bits32 5] }, rfl, rfl, rfl⟩, by decide, by decide,
    { State.reset with busy := true, agenda := [.write (Config.base + 0x080) .bits32 5] }, rfl, rfl, rfl⟩

/-- The four stops: just past the window, its first and last byte under reset, a byte access, and the last odd address. -/
theorem witness_AccessesOutsideTheInterfaceStop :
    step { State.reset with agenda := [.read (Config.base + 4096) .bits32] } = .fault .outsideWindow ∧
    step { State.reset with rst := true, agenda := [.read Config.base .bits32] } = .refused .accessDuringReset ∧
    step { State.reset with agenda := [.read Config.base .bits8] } = .refused .accessWidth ∧
    step { State.reset with agenda := [.write (Config.base + 4095) .bits32 0] } = .refused .misalignedAccess := by
  have h0 := offsetOf_base_add (show 0 < 4096 by decide)
  have hl := offsetOf_base_add (show 4095 < 4096 by decide)
  rw [Nat.add_zero] at h0
  refine ⟨?_, ?_, ?_, ?_⟩ <;> rw [step_cons rfl] <;> simp only [deliver, busRead, busWrite, access]
  · rw [offsetOf_outside (.inr (Nat.le_refl _))]
  · rw [h0]; rfl
  · rw [h0]; rfl
  · rw [hl]; rfl

/-- The first and the last offset of each reserved range. -/
theorem witness_ReservedOffsetsReadZeroAndIgnoreWrites :
    (∀ off ∈ [0x054, 0x05C, 0x074, 0x07C, 0x0C0, 0xFFC], off % 4 = 0 ∧
      ((0x054 ≤ off ∧ off ≤ 0x05C) ∨ (0x074 ≤ off ∧ off ≤ 0x07C) ∨ (0x0C0 ≤ off ∧ off ≤ 0xFFC))) ∧
    BlockInvariant State.reset ∧
    ∃ s : State, s.rst = false ∧ s.agenda = .read (Config.base + 0xFFC) .bits32 :: [] :=
  ⟨by decide, by constructor <;> decide, { State.reset with agenda := [.read (Config.base + 0xFFC) .bits32] }, rfl, rfl⟩

/-- A dropped write to H0 and a write to CTRL, both while BUSY = 1. -/
theorem witness_ReadsWhileBusyGiveTheOldValues :
    (State.reset.busy = false ∧ Reg.code ≠ Reg.status) ∧
    ∀ r ∈ [Reg.h 0, Reg.ctrl], ∃ s t : State, s.busy = true ∧ step s = .next t ∧ ¬ engineNext s ∧
      ∀ rest, s.agenda ≠ .assertRst :: rest ∧ s.agenda ≠ .releaseRst :: rest := by
  refine ⟨by decide, fun r _ => ⟨{ State.reset with busy := true, agenda := [wr r 1] },
    hostWrite r 1 { State.reset with busy := true }, rfl, ?_, ?_, fun rest => ⟨by simp [wr], by simp [wr]⟩⟩⟩
  · rw [step_wr rfl rfl]; rfl
  · rintro (h | ⟨rest, h⟩) <;> simp [wr] at h

theorem witness_IrqIsTheLevelOfIeAndDone :
    State.reset.busy = false ∧ (∃ t, exec .nop { State.reset with ie := true } = .next t ∧ irq t = true) ∧
    (0x00000002 : Word).getLsbD 1 = true := ⟨rfl, ⟨_, rfl, rfl⟩, by decide⟩

/-- OVR falls by a write to STATUS and by `rst`; ERR changes by a completion and by `rst`. -/
theorem witness_OverrunAndErrAreSticky :
    (∃ s t : State, step s = .next t ∧ s.ovr = true ∧ t.ovr = false ∧
      s.agenda = .write (Config.base + 0x00C) .bits32 4 :: []) ∧
    (∃ s t : State, step s = .next t ∧ s.ovr = true ∧ t.ovr = false ∧ s.err = .seq ∧ t.err = .ok ∧
      s.agenda = .assertRst :: []) ∧
    (∃ s t : State, step s = .next t ∧ s.err = .ok ∧ t.err = .badstep) := by
  refine ⟨⟨{ State.reset with ovr := true, agenda := [.write (Config.base + 0x00C) .bits32 4] }, State.reset, ?_, rfl, rfl, rfl⟩,
    ⟨{ State.reset with ovr := true, err := .seq, agenda := [.assertRst] }, _, rfl, rfl, rfl, rfl, rfl, rfl⟩,
    ⟨inFlight 0x20 .reset, _, rfl, rfl, rfl⟩⟩
  rw [step_cons rfl]; simp only [deliver, busWrite]
  rw [access_inside _ (by decide) (by decide) rfl]; rfl

theorem witness_ResetSetsEveryElement :
    (∃ s : State, s.rst = true ∧ engineNext s) ∧
    (∃ s : State, s.rst = true ∧ s.agenda = .read (Config.base + 4095) .bits8 :: []) ∧
    (∃ s : State, s.busy = true ∧ s.agenda = .assertRst :: []) ∧
    (∃ s : State, s.agenda = .releaseRst :: [] ∧ s.rst = true) :=
  ⟨⟨{ State.reset with rst := true }, rfl, .inl rfl⟩,
    ⟨{ State.reset with rst := true, agenda := [.read (Config.base + 4095) .bits8] }, rfl, rfl⟩,
    ⟨{ State.reset with busy := true, agenda := [.assertRst] }, rfl, rfl⟩,
    ⟨{ State.reset with rst := true, agenda := [.releaseRst] }, rfl, rfl⟩⟩

/-- The invariant right after reset, and in a state with a command in flight and something left on the agenda. -/
theorem witness_reset_meets_invariant : BlockInvariant (inFlight 0x20 State.reset) := by
  constructor <;> decide

theorem witness_EveryAcceptedCommandCompletes : ∃ s t : State, BlockInvariant s ∧ s.busy = true ∧ s.agenda.length = 1 ∧
    Host.Core.run core (s.agenda.length + 1) s = .next t :=
  ⟨inFlight 0x20 .reset, _, witness_reset_meets_invariant, rfl, rfl, rfl⟩

theorem witness_HiddenRegistersAreNotReadable : ∃ s t : State, sameButHidden s t ∧ s.key ≠ t.key ∧ s.cmdw ≠ t.cmdw :=
  ⟨.reset, { State.reset with key := Vector.replicate 32 1, cmdw := 5 }, rfl, by decide, by decide⟩

theorem witness_StepKeepsTheInvariant : ∃ s t : State, BlockInvariant s ∧ step s = .next t ∧ s ≠ t :=
  ⟨inFlight 0x20 .reset, _, witness_reset_meets_invariant, rfl, by decide⟩

end Sys2Proof.Tests
end

section
/-! SUPPORT. What a command and ENGINE's turn can do, said once for every later invariant and frame proof: an error writes
only ERR, BUSY and DONE, a success first makes the writes of the command's own rule. -/

namespace Sys2Proof.Machine

/-- `CommandWrites s i s'`: command `i` succeeds from `s`, and `s'` is `s` with the writes of the command's rule, before the
completion writes ERR, BUSY and DONE (R69). `exec_cases` ties it to `exec`. -/
inductive CommandWrites (s : State) : Instr → State → Prop
  | nop : CommandWrites s .nop s
  | shaInit : CommandWrites s .shaInit { s with stream := HashStream.start, kpad := zeroBytes 64, mode := .hash }
  | shaCompress : CommandWrites s .shaCompress { s with stream := { s.stream with h := compress s.stream.h s.data } }
  | shaUpdate (len : Nat) (streaming : s.mode ≠ .idle) (fits : len ≤ 64) :
      CommandWrites s (.shaUpdate len) { s with stream := absorb (dataBytes len s) s.stream }
  | shaFinal (plain : s.mode = .hash) :
      CommandWrites s .shaFinal { s with dig := finalDigest s.stream, stream := s.stream.closed, mode := .idle }
  | setSecret (len : Nat) (nonempty : len ≠ 0) (fits : len < 33) :
      CommandWrites s (.setSecret len)
        { s with key := padTo 32 (dataBytes len s), keyLen := ⟨len, fits⟩, data := zeroBytes 64 }
  | hmacInit (keyed : s.keyLen ≠ 0) : CommandWrites s .hmacInit (hmacOpen s)
  | hmacFinal (keyedStream : s.mode = .hmac) : CommandWrites s .hmacFinal (hmacClose s)
  | setTimestep (nonzero : s.argLo ≠ 0) : CommandWrites s .setTimestep { s with timestep := s.argLo }
  | totpStepsSentinel (unkeyed : s.keyLen = 0) : CommandWrites s .totpSteps (setSentinel s)
  | totpStepsHash (keyed : s.keyLen ≠ 0) : CommandWrites s .totpSteps (totpHash s.argLo s)
  | totpTimeSentinel (noCode : s.keyLen = 0 ∨ timestamp s = 0) : CommandWrites s .totpTime (setSentinel s)
  | totpTimeHash (hashed : ¬(s.keyLen = 0 ∨ timestamp s = 0)) :
      CommandWrites s .totpTime (totpHash (stepsOf (timestamp s) s.timestep) s)
  | truncate : CommandWrites s .truncate (setCode (truncateMac s.dig) s)

/-- Everything a command can do (R69, R70): it completes with an error code and no other write, or with
its own writes and ERR = OK. -/
theorem exec_cases {i : Instr} {s t : State} (h : exec i s = .next t) :
    (∃ e ≠ .ok, t = finish e s) ∨ ∃ s', CommandWrites s i s' ∧ t = finish .ok s' := by
  cases i with
  | nop => cases h; exact .inr ⟨_, .nop, rfl⟩
  | shaInit => cases h; exact .inr ⟨_, .shaInit, rfl⟩
  | shaCompress => cases h; exact .inr ⟨_, .shaCompress, rfl⟩
  | shaUpdate len =>
    cases h
    split
    · exact .inl ⟨.seq, nofun, rfl⟩
    · split
      · exact .inl ⟨.badlen, nofun, rfl⟩
      · exact .inr ⟨_, .shaUpdate len ‹_› (by omega), rfl⟩
  | shaFinal =>
    cases h
    split
    · exact .inl ⟨.seq, nofun, rfl⟩
    · exact .inr ⟨_, .shaFinal (not_not.mp ‹_›), rfl⟩
  | setSecret len =>
    cases h
    split
    · exact .inl ⟨.badlen, nofun, rfl⟩
    · exact .inr ⟨_, .setSecret len (by omega) (by omega), rfl⟩
  | hmacInit =>
    cases h
    split
    · exact .inl ⟨.nokey, nofun, rfl⟩
    · exact .inr ⟨_, .hmacInit ‹_›, rfl⟩
  | hmacFinal =>
    cases h
    split
    · exact .inl ⟨.seq, nofun, rfl⟩
    · exact .inr ⟨_, .hmacFinal (not_not.mp ‹_›), rfl⟩
  | setTimestep =>
    cases h
    split
    · exact .inl ⟨.badstep, nofun, rfl⟩
    · exact .inr ⟨_, .setTimestep ‹_›, rfl⟩
  | totpSteps =>
    cases h
    split
    · exact .inr ⟨_, .totpStepsSentinel ‹_›, rfl⟩
    · exact .inr ⟨_, .totpStepsHash ‹_›, rfl⟩
  | totpTime =>
    cases h
    split
    · exact .inr ⟨_, .totpTimeSentinel ‹_›, rfl⟩
    · exact .inr ⟨_, .totpTimeHash ‹_›, rfl⟩
  | truncate => cases h; exact .inr ⟨_, .truncate, rfl⟩

/-- Everything ENGINE's turn can do: nothing, an error completion (R63, R69), or the completion of a decoded command that
succeeds. -/
theorem engineTurn_cases {s t : State} (h : engineTurn s = .next t) :
    t = s ∨
    (s.busy = true ∧ s.rst = false ∧
      ((∃ e ≠ .ok, t = finish e s) ∨ ∃ i s', decode s.cmdw = .ok i ∧ CommandWrites s i s' ∧ t = finish .ok s')) := by
  unfold engineTurn at h
  split at h
  case isFalse => cases h; exact .inl rfl
  case isTrue hturn =>
    obtain ⟨hbusy, hrst⟩ : s.busy = true ∧ s.rst = false := by simpa using hturn
    refine .inr ⟨hbusy, hrst, ?_⟩
    unfold completeCommand at h
    split at h
    · rename_i i hi
      exact (exec_cases h).imp_right fun ⟨s', hw, ht⟩ => ⟨i, s', hi, hw, ht⟩
    · cases h; exact .inl ⟨.badop, nofun, rfl⟩

/-! ### The registers that hold the secret, and the reset input -/

@[simp] theorem totpHash_key (c : Word) (s : State) : (totpHash c s).key = s.key := by simp [totpHash]
@[simp] theorem totpHash_keyLen (c : Word) (s : State) : (totpHash c s).keyLen = s.keyLen := by simp [totpHash]
@[simp] theorem totpHash_rst (c : Word) (s : State) : (totpHash c s).rst = s.rst := by simp [totpHash]

/-- No command touches the reset input. -/
theorem CommandWrites.rst_eq {i : Instr} {s s' : State} (h : CommandWrites s i s') : s'.rst = s.rst := by
  cases h <;> simp

/-- A command that succeeds and changes the secret is a SET_SECRET, and it leaves KEYLEN nonzero (R105). -/
theorem CommandWrites.secret_cases {i : Instr} {s s' : State} (h : CommandWrites s i s') :
    (s'.key = s.key ∧ s'.keyLen = s.keyLen) ∨ (s'.keyLen ≠ 0 ∧ ∃ len, i = .setSecret len) := by
  cases h with
  | setSecret len nonempty fits => exact .inr ⟨fun h0 => nonempty (congrArg Fin.val h0), len, rfl⟩
  | _ => left; simp

/-- No host write changes KEY or KEYLEN (R67). -/
theorem hostWrite_secret (r : Reg) (v : Word) (s : State) :
    (hostWrite r v s).key = s.key ∧ (hostWrite r v s).keyLen = s.keyLen := by
  obtain ⟨-, h⟩ | ⟨-, h⟩ | ⟨-, -, h⟩ | ⟨-, -, h⟩ | ⟨-, -, -, h⟩ := hostWrite_cases r v s <;> rw [h]
  · simp
  · simp
  · simp
  · cases r <;> exact ⟨rfl, rfl⟩
  · simp

end Sys2Proof.Machine
end

section
/-! SUPPORT. The invariant of the block is kept by every operation a step is made of. Each lemma gives only the fields of
`BlockInvariant` that its operation could disturb; the others stand by definition. -/

namespace Sys2Proof.Machine

/-! ### What single fields need of the shared operations -/

/-- FILL stays MLEN mod 64 while bytes are absorbed (R91); MLEN wraps at a multiple of 64. -/
theorem absorb_fill_mlen {st : HashStream} (S : List Byte) (h : st.fill.val = st.mlen.toNat % 64) :
    (absorb S st).fill.val = (absorb S st).mlen.toNat % 64 := by
  rw [absorb_fill, absorb_mlen, BitVec.toNat_add, BitVec.toNat_ofNat]
  omega

/-- The key block of a keyed stream is opened with FILL = MLEN mod 64 (R107). -/
theorem openInner_fill_mlen (K0 : Vector Byte 64) : (openInner K0).fill.val = (openInner K0).mlen.toNat % 64 :=
  absorb_fill_mlen _ rfl

/-- K0 of a secret of at most 32 bytes is zero from byte 32 on (R101). -/
theorem paddedKey_secret_drop (s : State) : (paddedKey (secret s)).toList.drop 32 = zeros 32 := by
  have hlen := s.keyLen.isLt
  rw [paddedKey_secret, List.drop_append, secret_length,
    List.drop_eq_nil_of_le (by rw [secret_length]; omega), List.nil_append, zeros, zeros, List.drop_replicate]
  congr 1; omega

/-- KEY is zero from byte LEN on once LEN bytes are loaded (R105). -/
theorem padTo_dataBytes_drop {len : Nat} (s : State) (fits : len < 33) :
    (padTo 32 (dataBytes len s)).toList.drop len = zeros (32 - len) := by
  have hlen : (dataBytes len s).length = len := by rw [dataBytes_length]; omega
  rw [padTo_toList_of_le (by omega), hlen, List.drop_append, hlen, List.drop_eq_nil_of_le (by omega)]
  simp

/-- A code of dynamic truncation has at most six digits (R109). -/
theorem truncateMac_lt (mac : Vector Byte 20) : truncateMac mac < 1000000 := Nat.mod_lt _ (by decide)

theorem clearedKpad_drop : (zeroBytes 64).toList.drop 32 = zeros 32 := by decide

/-- The sentinel's two words are the digits of code 0 (R110). -/
theorem sentinel_ascii :
    (0x30303030 : Word) = asciiHigh (0 : Word).toNat ∧ (0x30300000 : Word) = asciiLow (0 : Word).toNat := by decide

/-- With `rst` released there is nothing to hold. -/
theorem reset_held_of_released {s : State} (hrst : s.rst = false) : s.rst = true → s = resetBlock true s := by
  simp [hrst]

namespace BlockInvariant

/-- The reset values meet the invariant, `rst` asserted or released (R137). -/
theorem resetBlock (b : Bool) (s : State) : BlockInvariant (resetBlock b s) where
  timestep_ne_zero := (by decide : (30 : Word) ≠ 0)
  key_tail_zero := (by decide : (zeroBytes 32).toList.drop 0 = zeros 32)
  code_range := (by decide : (0 : Word).toNat < 1000000)
  code_ascii := sentinel_ascii
  sentinel_code := fun _ => rfl
  fill_mlen := rfl
  idle_stream := fun _ => ⟨rfl, rfl⟩
  kpad_cleared := fun _ => rfl
  kpad_tail := clearedKpad_drop
  keyed_stream := nofun
  busy_not_done := nofun
  reset_held := fun (hb : b = true) => by rw [hb]; rfl

section
variable {s : State} (h : BlockInvariant s)
include h

/-- The agenda is not the block's. -/
theorem taken : BlockInvariant (taken s) :=
  { h with reset_held := fun hr => congrArg Machine.taken (h.reset_held hr) }

/-- An edge of the reset input, or a release that is none. -/
theorem releaseReset : BlockInvariant (releaseReset s) := by
  unfold Machine.releaseReset
  split
  · exact .resetBlock false s
  · exact h

variable (hrst : s.rst = false)
include hrst

/-! ### Completions -/

theorem finish (e : ErrCode) : BlockInvariant (finish e s) :=
  { h with
    busy_not_done := nofun
    reset_held := reset_held_of_released hrst }

theorem setCode {c : Nat} (hc : c < 1000000) : BlockInvariant (setCode c s) := by
  have hcode : (BitVec.ofNat 32 c).toNat = c := Nat.mod_eq_of_lt (by omega)
  exact { h with
    code_range := by rw [setCode_code, hcode]; exact hc
    code_ascii := by rw [setCode_code, hcode]; exact ⟨rfl, rfl⟩
    sentinel_code := nofun
    reset_held := reset_held_of_released hrst }

theorem setSentinel : BlockInvariant (setSentinel s) :=
  { h with
    code_range := by simp
    code_ascii := sentinel_ascii
    sentinel_code := fun _ => rfl
    reset_held := reset_held_of_released hrst }

/-- Only a keyed stream opens with a key in KPAD, and only under a secret (R37, R107). -/
theorem hmacOpen (keyed : s.keyLen ≠ 0) : BlockInvariant (hmacOpen s) :=
  { h with
    fill_mlen := openInner_fill_mlen _
    idle_stream := nofun
    kpad_cleared := fun hm => absurd rfl hm
    kpad_tail := paddedKey_secret_drop s
    keyed_stream := fun _ => keyed
    reset_held := reset_held_of_released hrst }

/-- The end of a keyed stream closes the stream and clears KPAD (R93, R108). -/
theorem hmacClose : BlockInvariant (hmacClose s) :=
  { h with
    fill_mlen := by simp
    idle_stream := fun _ => ⟨rfl, rfl⟩
    kpad_cleared := fun _ => rfl
    kpad_tail := clearedKpad_drop
    keyed_stream := nofun
    reset_held := reset_held_of_released hrst }

/-- Bytes are absorbed only into an open stream (R99, R112). -/
theorem absorbInto (streaming : s.mode ≠ .idle) (S : List Byte) :
    BlockInvariant { s with stream := absorb S s.stream } :=
  { h with
    fill_mlen := absorb_fill_mlen S h.fill_mlen
    idle_stream := fun hm => absurd hm streaming
    reset_held := reset_held_of_released hrst }

/-- `totp_hash` opens a keyed stream, absorbs the counter, closes the stream and publishes the code (R112). -/
theorem totpHash (keyed : s.keyLen ≠ 0) (c : Word) : BlockInvariant (totpHash c s) := by
  have hopen := h.hmacOpen hrst keyed
  have hclose := (hopen.absorbInto hrst nofun (counterBytes c)).hmacClose hrst
  have hsteps : BlockInvariant { Machine.hmacClose (absorbCounter c (Machine.hmacOpen s)) with steps := c } :=
    { hclose with reset_held := reset_held_of_released hrst }
  exact hsteps.setCode hrst (truncateMac_lt _)

/-- The writes of every command that succeeds keep the invariant. -/
theorem commandWrites {i : Instr} {s' : State} (hw : CommandWrites s i s') : BlockInvariant s' := by
  have released {t : State} (ht : t.rst = s.rst) := reset_held_of_released (ht.trans hrst)
  cases hw with
  | nop => exact h
  | shaInit =>
    exact { h with
      fill_mlen := rfl
      idle_stream := nofun
      kpad_cleared := fun _ => rfl
      kpad_tail := clearedKpad_drop
      keyed_stream := nofun
      reset_held := released rfl }
  | shaCompress => exact { h with reset_held := released rfl }
  | shaUpdate len streaming _ => exact h.absorbInto hrst streaming _
  | shaFinal plain =>
    exact { h with
      fill_mlen := rfl
      idle_stream := fun _ => ⟨rfl, rfl⟩
      kpad_cleared := fun _ => h.kpad_cleared (by simp [plain])
      keyed_stream := nofun
      reset_held := released rfl }
  | setSecret len nonempty fits =>
    exact { h with
      key_tail_zero := padTo_dataBytes_drop s fits
      keyed_stream := fun _ h0 => nonempty (congrArg Fin.val h0)
      reset_held := released rfl }
  | hmacInit keyed => exact h.hmacOpen hrst keyed
  | hmacFinal _ => exact h.hmacClose hrst
  | setTimestep nonzero => exact { h with timestep_ne_zero := nonzero, reset_held := released rfl }
  | totpStepsSentinel _ => exact h.setSentinel hrst
  | totpStepsHash keyed => exact h.totpHash hrst keyed _
  | totpTimeSentinel _ => exact h.setSentinel hrst
  | totpTimeHash hashed => exact h.totpHash hrst (fun h0 => hashed (.inl h0)) _
  | truncate => exact h.setCode hrst (truncateMac_lt _)

/-! ### Host accesses -/

theorem guardedWrite (r : Reg) (v : Word) : BlockInvariant (guardedWrite r v s) := by
  cases r with
  | cmd => exact { h with busy_not_done := fun _ => rfl, reset_held := reset_held_of_released hrst }
  | argLo | argHi | h | data => exact { h with reset_held := reset_held_of_released hrst }
  | _ => exact h

theorem hostWrite (r : Reg) (v : Word) : BlockInvariant (hostWrite r v s) := by
  obtain ⟨-, hw⟩ | ⟨-, hw⟩ | ⟨-, -, hw⟩ | ⟨-, -, hw⟩ | ⟨-, -, -, hw⟩ := hostWrite_cases r v s <;> rw [hw]
  · exact { h with reset_held := reset_held_of_released hrst }
  · exact { h with
      busy_not_done := fun hb => by simp [h.busy_not_done hb]
      reset_held := reset_held_of_released hrst }
  · exact { h with reset_held := reset_held_of_released hrst }
  · exact h.guardedWrite hrst r v
  · exact h

end

/-- ENGINE's turn keeps the invariant: a command's writes do, and so does the completion. -/
theorem engineTurn {s t : State} (h : BlockInvariant s) (ht : engineTurn s = .next t) : BlockInvariant t := by
  obtain rfl | ⟨-, hrst, ⟨e, -, rfl⟩ | ⟨i, s', -, hw, rfl⟩⟩ := engineTurn_cases ht
  · exact h
  · exact h.finish hrst e
  · exact (h.commandWrites hrst hw).finish (hw.rst_eq.trans hrst) .ok

end BlockInvariant

/-- Settles O49, by the cases of one step. -/
theorem stepKeepsTheInvariant : Obligations.StepKeepsTheInvariant := by
  intro s t h hstep
  obtain ⟨-, hturn⟩ | ⟨off, rest, -, -, -, hrst, rfl⟩ | ⟨off, v, rest, -, -, -, hrst, rfl⟩ | ⟨rest, -, rfl⟩ |
    ⟨rest, -, rfl⟩ := step_cases hstep
  · exact h.taken.engineTurn hturn
  · exact { h.taken with reset_held := reset_held_of_released hrst }
  · exact h.taken.hostWrite hrst _ v
  · exact .resetBlock true _
  · exact h.taken.releaseReset

end Sys2Proof.Machine
end

section
/-! The statements about KEY and the hidden registers. -/

namespace Sys2Proof.Machine

/-- Settles O10, by the cases of one step: only ENGINE's turn and the reset input reach KEY and KEYLEN. -/
theorem onlySetSecretOrResetChangesTheSecret : Obligations.OnlySetSecretOrResetChangesTheSecret := by
  intro s t hstep hchange
  have unchanged : ¬(t.key = s.key ∧ t.keyLen = s.keyLen) := by tauto
  obtain ⟨hnext, hturn⟩ | ⟨off, rest, -, -, -, -, rfl⟩ | ⟨off, v, rest, -, -, -, -, rfl⟩ | ⟨rest, ha, -⟩ |
    ⟨rest, ha, -⟩ := step_cases hstep
  · obtain rfl | ⟨hbusy, -, ⟨e, -, rfl⟩ | ⟨i, s', hi, hw, rfl⟩⟩ := engineTurn_cases hturn
    · exact absurd ⟨rfl, rfl⟩ unchanged
    · exact absurd ⟨rfl, rfl⟩ unchanged
    · obtain hsame | ⟨hlen, len, rfl⟩ := hw.secret_cases
      · exact absurd hsame unchanged
      · exact .inr ⟨hnext, hbusy, hlen, len, hi⟩
  · exact absurd ⟨rfl, rfl⟩ unchanged
  · exact absurd (hostWrite_secret _ v (taken s)) unchanged
  · exact .inl ⟨rest, .inl ha⟩
  · exact .inl ⟨rest, .inr ha⟩

/-- Settles O47, register by register: `hostRead` of each reads a visible one. -/
theorem hiddenRegistersAreNotReadable : Obligations.HiddenRegistersAreNotReadable := by
  intro s t r h
  rw [h]
  cases r <;> rfl

end Sys2Proof.Machine
end

section
/-! SUPPORT. Accesses of the window, as steps of the machine: when one stops and under which name, and what the others do. -/

namespace Sys2Proof.Machine

/-! ### Accesses that stop -/

theorem offsetOf_inside {addr : Nat} (hlo : Config.base ≤ addr) (hhi : addr < Config.base + 4096) :
    offsetOf addr = some (addr - Config.base) := by
  obtain ⟨off, rfl⟩ := Nat.exists_eq_add_of_le hlo
  rw [offsetOf_base_add (by omega), Nat.add_sub_cancel_left]

/-- BASE is a multiple of 4, so an address and its offset are misaligned together. -/
theorem offset_mod_four {addr : Nat} (hlo : Config.base ≤ addr) : (addr - Config.base) % 4 = addr % 4 := by
  have := base_mod_four
  omega

theorem access_outside {addr : Nat} (width : AccessWidth) (s : State) (use : Reg → State)
    (h : addr < Config.base ∨ Config.base + 4096 ≤ addr) : access addr width s use = .fault .outsideWindow := by
  simp [access, offsetOf_outside h]

theorem access_duringReset {addr : Nat} {s : State} (width : AccessWidth) (use : Reg → State) (hlo : Config.base ≤ addr)
    (hhi : addr < Config.base + 4096) (hrst : s.rst = true) :
    access addr width s use = .refused .accessDuringReset := by
  simp [access, offsetOf_inside hlo hhi, hrst]

theorem access_otherWidth {addr : Nat} {width : AccessWidth} {s : State} (use : Reg → State) (hlo : Config.base ≤ addr)
    (hhi : addr < Config.base + 4096) (hrst : s.rst = false) (hwidth : width ≠ .bits32) :
    access addr width s use = .refused .accessWidth := by
  simp [access, offsetOf_inside hlo hhi, hrst, hwidth]

theorem access_misaligned {addr : Nat} {s : State} (use : Reg → State) (hlo : Config.base ≤ addr)
    (hhi : addr < Config.base + 4096) (hrst : s.rst = false) (h4 : addr % 4 ≠ 0) :
    access addr .bits32 s use = .refused .misalignedAccess := by
  simp [access, offsetOf_inside hlo hhi, hrst, offset_mod_four hlo, h4]

/-! ### Accesses as steps -/

/-- A host read and a host write are both one `access`, in the state with the entry taken. -/
theorem step_eq_access {s : State} {addr : Nat} {width : AccessWidth} {v : Word} {rest : List BusEvent}
    (h : s.agenda = .read addr width :: rest ∨ s.agenda = .write addr width v :: rest) :
    ∃ use, step s = access addr width { s with agenda := rest } use := by
  obtain h | h := h
  · rw [step_cons h, deliver, busRead]
    exact ⟨_, rfl⟩
  · rw [step_cons h, deliver, busWrite]
    exact ⟨_, rfl⟩

/-- What HOST reads does not depend on what is still to happen. -/
theorem hostRead_agenda (r : Reg) (s : State) (rest : List BusEvent) :
    hostRead r { s with agenda := rest } = hostRead r s := by
  cases r <;> rfl

/-- A read inside the interface returns the register's value and changes nothing of the block (R66). -/
theorem step_read {s : State} {off : Nat} {rest : List BusEvent} (hoff : off < 4096) (h4 : off % 4 = 0)
    (hrst : s.rst = false) (h : s.agenda = .read (Config.base + off) .bits32 :: rest) :
    step s = .next { s with agenda := rest, rdata := some (hostRead (regAt off) s) } := by
  rw [step_cons h, deliver, busRead, access_inside (s := { s with agenda := rest }) _ hoff h4 hrst, hostRead_agenda]

/-- A write inside the interface is `hostWrite` of the register at its offset (R67). -/
theorem step_write {s : State} {off : Nat} {v : Word} {rest : List BusEvent} (hoff : off < 4096) (h4 : off % 4 = 0)
    (hrst : s.rst = false) (h : s.agenda = .write (Config.base + off) .bits32 v :: rest) :
    step s = .next (hostWrite (regAt off) v { s with agenda := rest }) := by
  rw [step_cons h, deliver, busWrite, access_inside (s := { s with agenda := rest }) _ hoff h4 hrst]

/-! ### Reserved offsets and reserved bits -/

/-- The reserved offsets of the window (R50). -/
abbrev reservedOffset (off : Nat) : Prop :=
  (0x054 ≤ off ∧ off ≤ 0x05C) ∨ (0x074 ≤ off ∧ off ≤ 0x07C) ∨ (0x0C0 ≤ off ∧ off ≤ 0xFFC)

/-- The register map lists no reserved offset. -/
theorem regAt_reservedOffset {off : Nat} (h : reservedOffset off) : regAt off = .reserved := by
  have hmap : ∀ p ∈ registerMap, ¬ reservedOffset p.1 := by decide
  have hnone : registerMap.lookup off = none := by
    rw [List.lookup_eq_none_iff]
    intro p hp
    have hne : off ≠ p.1 := fun heq => hmap p hp (heq ▸ h)
    simpa using hne
  rw [regAt, hnone, Option.getD_none]

/-- A word below `2 ^ k` has no bit at `k` or above. -/
theorem and_bitsFrom_eq_zero {x : Word} {k : Nat} (h : x.toNat < 2 ^ k) : x &&& BitVec.allOnes 32 <<< k = 0 := by
  ext i hi
  by_cases hik : i < k
  · simp [hik]
  · have hbit : x.toNat.testBit i = false :=
      Nat.testBit_lt_two_pow (h.trans_le (Nat.pow_le_pow_right (by decide) (not_lt.mp hik)))
    simp [BitVec.getElem_eq_testBit_toNat, hbit]

theorem ctrlWord_reserved (s : State) : ctrlWord s &&& 0xFFFFFFFE = 0 := by
  cases h : s.ie <;> simp [ctrlWord, h]

/-- The mask of the reserved bits, cut as STATUS is, meets only fields that are 0 (R20). -/
theorem statusWord_reserved (s : State) : statusWord s &&& 0xFFFFF080 = 0 := by
  have hmask : (0xFFFFF080 : Word) = (0xFFFFF : BitVec 20) ++ (0 : BitVec 4) ++ (1 : BitVec 1) ++ (0 : BitVec 2) ++
      (0 : BitVec 1) ++ (0 : BitVec 1) ++ (0 : BitVec 1) ++ (0 : BitVec 1) ++ (0 : BitVec 1) := by decide
  rw [hmask, statusWord, BitVec.and_append]
  simp only [BitVec.and_append, BitVec.ofNat_eq_ofNat, BitVec.and_zero, BitVec.zero_and]
  rfl

theorem keyLen_reserved (s : State) : hostRead .keyLen s &&& 0xFFFFFFC0 = 0 :=
  and_bitsFrom_eq_zero (k := 6) (by have := s.keyLen.isLt; simp only [hostRead, BitVec.toNat_ofNat]; omega)

theorem fill_reserved (s : State) : hostRead .fill s &&& 0xFFFFFFC0 = 0 :=
  and_bitsFrom_eq_zero (k := 6) (by have := s.stream.fill.isLt; simp only [hostRead, BitVec.toNat_ofNat]; omega)

theorem BlockInvariant.code_reserved {s : State} (h : BlockInvariant s) : hostRead .code s &&& 0xFFF00000 = 0 :=
  and_bitsFrom_eq_zero (k := 20) (h.code_range.trans (by decide))

/-- A write to CTRL sees only bit 0 of its value (R19). -/
theorem hostWrite_ctrl_masked (v : Word) (s : State) : hostWrite .ctrl v s = hostWrite .ctrl (v &&& 1) s := by
  have hbit : (v &&& 1).getLsbD 0 = v.getLsbD 0 := by simp
  simp only [hostWrite, writeCtrl, hbit]

/-- A write to STATUS sees only bits 1 and 2 of its value (R20). -/
theorem hostWrite_status_masked (v : Word) (s : State) : hostWrite .status v s = hostWrite .status (v &&& 6) s := by
  have hdone : (v &&& 6).getLsbD 1 = v.getLsbD 1 := by simp
  have hovr : (v &&& 6).getLsbD 2 = v.getLsbD 2 := by simp
  simp only [hostWrite, writeStatus, hdone, hovr]

end Sys2Proof.Machine
end

section
/-! The statements about accesses outside the interface and at reserved offsets. -/

namespace Sys2Proof.Machine

/-- Settles O39: a read and a write are one access, and each of its checks stops it under its own name. -/
theorem accessesOutsideTheInterfaceStop : Obligations.AccessesOutsideTheInterfaceStop := by
  intro s addr width v rest h
  obtain ⟨use, hstep⟩ := step_eq_access h
  rw [hstep]
  refine ⟨access_outside width _ use, access_duringReset width use, access_otherWidth use, ?_⟩
  rintro hlo hhi hrst rfl h4
  exact access_misaligned use hlo hhi hrst h4

/-- Settles O40: no reserved offset is in the register map, and the reserved bits lie above or between the fields. -/
theorem reservedOffsetsReadZeroAndIgnoreWrites : Obligations.ReservedOffsetsReadZeroAndIgnoreWrites := by
  refine ⟨fun s => ⟨ctrlWord_reserved s, statusWord_reserved s, keyLen_reserved s, fill_reserved s,
    BlockInvariant.code_reserved⟩, fun s v => ⟨hostWrite_ctrl_masked v s, hostWrite_status_masked v s⟩, ?_⟩
  intro s off v rest h4 hres hrst
  have hoff : off < 4096 := by omega
  have hreg : regAt off = .reserved := regAt_reservedOffset hres
  constructor
  · intro h
    rw [step_read hoff h4 hrst h, hreg]
    rfl
  · intro h
    rw [step_write hoff h4 hrst h, hreg]
    rfl

end Sys2Proof.Machine
end

section
/-! SUPPORT. What a word decodes to, said once by its three fields (R57, R62, R63): its command has the word's OP and LEN, and
RSV is 0. The statements about decode, encode and the rows of R62 all follow from it. -/

namespace Sys2Proof

/-- What an arm of `decode` for an opcode without LEN answers has the word's opcode and its LEN, 0. -/
theorem fields_of_withoutLen {w : Word} {i j : Instr} (h : withoutLen w i = .ok j)
    (hop : (opField w).toNat = (opcodeOf i).toNat) (hlen : lenOf i = 0) :
    opField w = opcodeOf j ∧ (lenField w).toNat = lenOf j := by
  unfold withoutLen at h
  split at h
  case isTrue hzero => cases h; exact ⟨BitVec.eq_of_toNat_eq hop, by rw [hzero, hlen]; rfl⟩
  case isFalse => cases h

/-- A word decodes to the one command that has its opcode and its LEN, exactly when RSV is 0 (R62, R63). -/
theorem decode_eq_ok_iff {w : Word} {i : Instr} :
    decode w = .ok i ↔ rsvField w = 0 ∧ opField w = opcodeOf i ∧ (lenField w).toNat = lenOf i := by
  constructor
  · intro h
    unfold decode at h
    split at h
    case isTrue => cases h
    case isFalse hrsv =>
      refine ⟨not_not.mp hrsv, ?_⟩
      split at h
      case h_4 hop => cases h; exact ⟨BitVec.eq_of_toNat_eq hop, rfl⟩
      case h_6 hop => cases h; exact ⟨BitVec.eq_of_toNat_eq hop, rfl⟩
      case h_13 => cases h
      all_goals exact fields_of_withoutLen h ‹_› rfl
  · rintro ⟨hrsv, hop, hlen⟩
    have hzero (h0 : lenOf i = 0) : lenField w = 0 := BitVec.eq_of_toNat_eq (hlen.trans h0)
    cases i with
    | shaUpdate | setSecret => simp [decode, hrsv, hop, opcodeOf, hlen, lenOf]
    | _ => simp [decode, hrsv, hop, opcodeOf, withoutLen, hzero rfl]

/-- Well formed says of every command that its LEN fits the field (R59). -/
theorem wellFormed_iff_lenOf_lt {i : Instr} : i.wellFormed = true ↔ lenOf i < 128 := by
  cases i with
  | shaUpdate | setSecret => exact decide_eq_true_iff
  | _ => decide

theorem decode_encode {i : Instr} (h : i.wellFormed = true) : decode (encode i) = .ok i := by
  refine decode_eq_ok_iff.mpr ⟨rsvField_append _ _ _, opField_append _ _ _, ?_⟩
  rw [encode, lenField_append, BitVec.toNat_ofNat]
  exact Nat.mod_eq_of_lt (wellFormed_iff_lenOf_lt.mp h)

theorem encode_of_decode {w : Word} {i : Instr} (h : decode w = .ok i) : encode i = w := by
  obtain ⟨hrsv, hop, hlen⟩ := decode_eq_ok_iff.mp h
  rw [word_eq_fields w, hrsv, hop, encode, ← hlen, BitVec.ofNat_toNat, BitVec.setWidth_eq]

theorem wellFormed_of_decode {w : Word} {i : Instr} (h : decode w = .ok i) : i.wellFormed = true := by
  obtain ⟨-, -, hlen⟩ := decode_eq_ok_iff.mp h
  exact wellFormed_iff_lenOf_lt.mpr (hlen ▸ (lenField w).isLt)

/-! ### The rows of R62 -/

/-- Ten rows compare the whole word; the rows of SHA_UPDATE and SET_SECRET leave LEN out. -/
theorem opcodeRows_cases : ∀ r ∈ opcodeRows,
    (r.mask = 0xFFFFFFFF ∧ (decode r.pattern).map mnemonicOf = .ok r.mnemonic) ∨
    r = ⟨mnemonicOf (.shaUpdate 0), encode (.shaUpdate 0), 0xFFFF80FF⟩ ∨
    r = ⟨mnemonicOf (.setSecret 0), encode (.setSecret 0), 0xFFFF80FF⟩ := by decide

theorem opcodeRow_eq_of_mnemonic_eq : ∀ r ∈ opcodeRows, ∀ r' ∈ opcodeRows, r.mnemonic = r'.mnemonic → r = r' := by
  decide

/-- The mask 0xFFFF80FF compares RSV and OP and leaves LEN out. -/
theorem and_lenMask (w : Word) : w &&& 0xFFFF80FF = rsvField w ++ (0 : BitVec 7) ++ opField w := by
  have hmask : (0xFFFF80FF : Word) = BitVec.allOnes 17 ++ (0 : BitVec 7) ++ BitVec.allOnes 8 := by decide
  conv_lhs => rw [word_eq_fields w, hmask]
  rw [BitVec.and_append, BitVec.and_append, BitVec.and_allOnes, BitVec.and_allOnes,
    show lenField w &&& 0 = 0 from BitVec.and_zero]

theorem fields_of_and_lenMask {w : Word} {o : BitVec 8} (h : w &&& 0xFFFF80FF = (0 : BitVec 17) ++ (0 : BitVec 7) ++ o) :
    rsvField w = 0 ∧ opField w = o := by
  rw [and_lenMask] at h
  have hrsv := congrArg rsvField h
  have hop := congrArg opField h
  rw [rsvField_append, rsvField_append] at hrsv
  rw [opField_append, opField_append] at hop
  exact ⟨hrsv, hop⟩

/-- A word that a row accepts decodes to the row's command. -/
theorem decode_of_accepts {r : OpcodeRow} {w : Word} (hr : r ∈ opcodeRows) (h : r.accepts w = true) :
    ∃ i, decode w = .ok i ∧ mnemonicOf i = r.mnemonic := by
  have hmatch : w &&& r.mask = r.pattern := eq_of_beq h
  obtain ⟨hmask, hdec⟩ | rfl | rfl := opcodeRows_cases r hr
  · have hw : w = r.pattern := by rw [← hmatch, hmask]; exact BitVec.and_allOnes.symm
    rw [← hw] at hdec
    cases hd : decode w with
    | ok i => exact ⟨i, rfl, Except.ok.inj (hd ▸ hdec)⟩
    | error e => rw [hd] at hdec; cases hdec
  · obtain ⟨hrsv, hop⟩ := fields_of_and_lenMask hmatch
    exact ⟨.shaUpdate (lenField w).toNat, decode_eq_ok_iff.mpr ⟨hrsv, hop, rfl⟩, rfl⟩
  · obtain ⟨hrsv, hop⟩ := fields_of_and_lenMask hmatch
    exact ⟨.setSecret (lenField w).toNat, decode_eq_ok_iff.mpr ⟨hrsv, hop, rfl⟩, rfl⟩

open Laws.EncodeInRow in
/-- The word of a well-formed command is accepted by the one row with its mnemonic. -/
theorem encodeInRow (i : Instr) : Statement i :=
  match i with
  | .nop => nop
  | .shaInit => shaInit
  | .shaCompress => shaCompress
  | .shaUpdate len => shaUpdate len
  | .shaFinal => shaFinal
  | .setSecret len => setSecret len
  | .hmacInit => hmacInit
  | .hmacFinal => hmacFinal
  | .setTimestep => setTimestep
  | .totpSteps => totpSteps
  | .totpTime => totpTime
  | .truncate => truncate

/-- A word that decodes is accepted by the row of its command. -/
theorem row_accepts_of_decode {w : Word} {i : Instr} (h : decode w = .ok i) :
    ∃ r ∈ opcodeRows, r.mnemonic = mnemonicOf i ∧ r.accepts w = true := by
  have hrows := encodeInRow i (wellFormed_of_decode h)
  rw [encode_of_decode h] at hrows
  have hmem : mnemonicOf i ∈ (opcodeRows.filter fun r => r.accepts w).map OpcodeRow.mnemonic :=
    hrows ▸ List.mem_singleton_self _
  obtain ⟨r, hr, hname⟩ := List.mem_map.mp hmem
  obtain ⟨hrow, haccepts⟩ := List.mem_filter.mp hr
  exact ⟨r, hrow, hname, haccepts⟩

/-! ### Illegal words -/

/-- The twelve values of OP that are some command's (R61), as `illegalWord` lists them. -/
abbrev definedOpcodes : List Nat := [0x00, 0x01, 0x02, 0x03, 0x04, 0x10, 0x11, 0x12, 0x20, 0x21, 0x22, 0x23]

/-- Every defined opcode, with a LEN where it takes one and 0 where it does not, is some command's. -/
theorem exists_command {op len : Nat} (hop : op ∈ definedOpcodes)
    (hlen : len = 0 ∨ op ∈ [0x03, 0x10]) : ∃ i : Instr, (opcodeOf i).toNat = op ∧ lenOf i = len := by
  obtain rfl | hlen := hlen
  · have hall : ∀ op ∈ definedOpcodes,
        ∃ i ∈ [Instr.nop, .shaInit, .shaCompress, .shaUpdate 0, .shaFinal, .setSecret 0, .hmacInit, .hmacFinal,
          .setTimestep, .totpSteps, .totpTime, .truncate], (opcodeOf i).toNat = op ∧ lenOf i = 0 := by decide
    obtain ⟨i, -, hi⟩ := hall op hop
    exact ⟨i, hi⟩
  · obtain rfl | rfl : op = 0x03 ∨ op = 0x10 := by simpa using hlen
    · exact ⟨.shaUpdate len, rfl, rfl⟩
    · exact ⟨.setSecret len, rfl, rfl⟩

/-- A command's opcode is one of the twelve, and only SHA_UPDATE and SET_SECRET have a LEN other than 0 (R61). -/
theorem opcodeOf_lenOf_legal (i : Instr) :
    (opcodeOf i).toNat ∈ definedOpcodes ∧ (lenOf i = 0 ∨ (opcodeOf i).toNat ∈ [0x03, 0x10]) := by
  cases i <;> simp [opcodeOf, lenOf]

/-- `decode_eq_ok_iff` with the fields as numbers. -/
theorem decode_eq_ok_iff_toNat {w : Word} {i : Instr} :
    decode w = .ok i ↔
      w.toNat / 2 ^ 15 = 0 ∧ w.toNat % 256 = (opcodeOf i).toNat ∧ w.toNat / 256 % 128 = lenOf i := by
  rw [decode_eq_ok_iff, ← BitVec.toNat_inj, ← BitVec.toNat_inj, rsvField_toNat, opField_toNat, lenField_toNat]
  rfl

/-- The words that decode to no command are R63's three cases. -/
theorem not_decode_ok_iff_illegalWord (w : Word) : (∀ i, decode w ≠ .ok i) ↔ Machine.illegalWord w := by
  constructor
  · intro hnone
    by_contra hlegal
    obtain ⟨hop, hrsv, hlen⟩ : _ ∧ _ ∧ _ := by simpa only [Machine.illegalWord, not_or, not_and_or, not_not] using hlegal
    obtain ⟨i, hi, hil⟩ := exists_command hop hlen
    exact hnone i (decode_eq_ok_iff_toNat.mpr ⟨hrsv, hi.symm, hil.symm⟩)
  · intro hillegal i hi
    obtain ⟨hrsv, hop, hlen⟩ := decode_eq_ok_iff_toNat.mp hi
    rw [Machine.illegalWord, hop, hlen] at hillegal
    obtain ⟨hmem, hzero⟩ := opcodeOf_lenOf_legal i
    obtain h | h | ⟨h, h'⟩ := hillegal
    · exact h hmem
    · exact h hrsv
    · exact hzero.elim h h'

end Sys2Proof
end

section
/-! SUPPORT. What a completion leaves unchanged: of an illegal word (R63), and of each command (R61, R75), one lemma per clause of
the frame, over the writes of a command that succeeds. -/

namespace Sys2Proof.Machine

/-- A word that decodes to no command completes with BADOP and no other write (R63). -/
theorem completeCommand_of_not_decode {s : State} (h : ∀ i, decode s.cmdw ≠ .ok i) :
    completeCommand s = .next (finish .badop s) := by
  unfold completeCommand
  split
  case h_1 i hi => exact absurd hi (h i)
  case h_2 => rfl

/-! ### The frame of the commands -/

@[simp] theorem totpHash_ie (c : Word) (s : State) : (totpHash c s).ie = s.ie := by simp [totpHash]
@[simp] theorem totpHash_ovr (c : Word) (s : State) : (totpHash c s).ovr = s.ovr := by simp [totpHash]
@[simp] theorem totpHash_cmdw (c : Word) (s : State) : (totpHash c s).cmdw = s.cmdw := by simp [totpHash]
@[simp] theorem totpHash_argLo (c : Word) (s : State) : (totpHash c s).argLo = s.argLo := by simp [totpHash]
@[simp] theorem totpHash_argHi (c : Word) (s : State) : (totpHash c s).argHi = s.argHi := by simp [totpHash]
@[simp] theorem totpHash_timestep (c : Word) (s : State) : (totpHash c s).timestep = s.timestep := by simp [totpHash]
@[simp] theorem totpHash_data (c : Word) (s : State) : (totpHash c s).data = s.data := by simp [totpHash]
@[simp] theorem totpHash_agenda (c : Word) (s : State) : (totpHash c s).agenda = s.agenda := by simp [totpHash]
@[simp] theorem totpHash_rdata (c : Word) (s : State) : (totpHash c s).rdata = s.rdata := by simp [totpHash]

namespace CommandWrites

variable {i : Instr} {s s' : State} (h : CommandWrites s i s')
include h

theorem host_registers_eq :
    s'.ie = s.ie ∧ s'.ovr = s.ovr ∧ s'.cmdw = s.cmdw ∧ s'.argLo = s.argLo ∧ s'.argHi = s.argHi ∧ s'.rst = s.rst ∧
      s'.agenda = s.agenda ∧ s'.rdata = s.rdata := by
  cases h <;> simp

theorem secret_data_eq (hi : ∀ len, i ≠ .setSecret len) :
    s'.key = s.key ∧ s'.keyLen = s.keyLen ∧ s'.data = s.data := by
  cases h with
  | setSecret len => exact absurd rfl (hi len)
  | _ => simp

theorem timestep_eq (hi : i ≠ .setTimestep) : s'.timestep = s.timestep := by
  cases h with
  | setTimestep => exact absurd rfl hi
  | _ => simp

theorem dig_eq (hi : i ∉ [.shaFinal, .hmacFinal, .totpSteps, .totpTime]) : s'.dig = s.dig := by
  cases h with
  | shaFinal | hmacFinal | totpStepsHash | totpTimeHash => simp at hi
  | _ => simp

theorem code_eq (hi : i ∉ [.totpSteps, .totpTime, .truncate]) :
    s'.code = s.code ∧ s'.codeAscii0 = s.codeAscii0 ∧ s'.codeAscii1 = s.codeAscii1 ∧ s'.valid = s.valid := by
  cases h with
  | totpStepsSentinel | totpStepsHash | totpTimeSentinel | totpTimeHash | truncate => simp at hi
  | _ => simp

theorem steps_eq (hi : i ∉ [.totpSteps, .totpTime]) : s'.steps = s.steps := by
  cases h with
  | totpStepsHash | totpTimeHash => simp at hi
  | _ => simp

theorem mode_eq (hi : i ∉ [.shaInit, .shaFinal, .hmacInit, .hmacFinal, .totpSteps, .totpTime]) : s'.mode = s.mode := by
  cases h with
  | shaInit | shaFinal | hmacInit | hmacFinal | totpStepsHash | totpTimeHash => simp at hi
  | _ => simp

theorem kpad_eq (hi : i ∉ [.shaInit, .hmacInit, .hmacFinal, .totpSteps, .totpTime]) : s'.kpad = s.kpad := by
  cases h with
  | shaInit | hmacInit | hmacFinal | totpStepsHash | totpTimeHash => simp at hi
  | _ => simp

theorem stream_eq (hi : i ∈ [.nop, .setTimestep, .truncate] ∨ ∃ len, i = .setSecret len) : s'.stream = s.stream := by
  cases h with
  | nop | setTimestep | truncate | setSecret => simp
  | _ => simp at hi

theorem stream_eq_of_shaCompress (hi : i = .shaCompress) : s'.stream = { s.stream with h := s'.stream.h } := by
  subst hi
  cases h
  rfl

end CommandWrites

end Sys2Proof.Machine
end

section
/-! The statements about command words and the frame of the commands. -/

namespace Sys2Proof.Machine

/-- Settles O1: each word is a closed computation of the decoder. -/
theorem tableWordsDecodeToTheirCommands : Obligations.TableWordsDecodeToTheirCommands := by
  unfold Obligations.TableWordsDecodeToTheirCommands
  decide

/-- Settles O4, from the three fields of the encoded word. -/
theorem decodeOfEncodeIsTheCommand : Obligations.DecodeOfEncodeIsTheCommand := fun _ h => decode_encode h

/-- Settles O5: a word is its three fields, and a command that decodes has them. -/
theorem encodeOfDecodeIsTheWord : Obligations.EncodeOfDecodeIsTheWord :=
  fun _ _ h => ⟨encode_of_decode h, wellFormed_of_decode h⟩

/-- Settles O2: an accepting row names the decoded command, so two of them have one mnemonic. -/
theorem decodingFollowsTheMatchAndMaskRows : Obligations.DecodingFollowsTheMatchAndMaskRows := by
  refine fun w => ⟨fun r hr h => ?_, fun i h => row_accepts_of_decode h, fun r hr r' hr' h h' => ?_⟩
  · obtain ⟨i, hi, hname⟩ := decode_of_accepts hr h
    obtain ⟨-, -, hlen⟩ := decode_eq_ok_iff_toNat.mp hi
    exact ⟨i, hi, hname, hlen.symm⟩
  · obtain ⟨i, hi, hname⟩ := decode_of_accepts hr h
    obtain ⟨j, hj, hname'⟩ := decode_of_accepts hr' h'
    obtain rfl : i = j := Except.ok.inj (hi.symm.trans hj)
    exact opcodeRow_eq_of_mnemonic_eq r hr r' hr' (hname.symm.trans hname')

/-- Settles O3: the cases of an illegal word, its acceptance, and ENGINE's turn with it. -/
theorem illegalWordsCompleteWithBadop : Obligations.IllegalWordsCompleteWithBadop := by
  refine ⟨not_decode_ok_iff_illegalWord, fun w s hidle => ?_, fun s hbusy hrst hnext hillegal => ?_⟩
  · simp [hostWrite, Reg.guarded, hidle, guardedWrite, accept]
  · have hnone := (not_decode_ok_iff_illegalWord s.cmdw).mpr hillegal
    rw [step_engineNext hnext, engineTurn_busy (s := taken s) hbusy hrst,
      completeCommand_of_not_decode (s := taken s) hnone]
    rfl

/-- Settles O9, clause by clause: a completion with an error code writes none of the registers, and a success makes the
command's own writes. -/
theorem commandsKeepWhatTheirRowDoesNotList : Obligations.CommandsKeepWhatTheirRowDoesNotList := by
  intro i s t h
  obtain ⟨e, -, rfl⟩ | ⟨s', hw, rfl⟩ := exec_cases h
  · simp
  · exact ⟨hw.host_registers_eq, hw.secret_data_eq, hw.timestep_eq, hw.dig_eq, hw.code_eq, hw.steps_eq, hw.mode_eq,
      hw.kpad_eq, hw.stream_eq, hw.stream_eq_of_shaCompress⟩

end Sys2Proof.Machine
end

section
/-! SUPPORT. ENGINE's completion as a step, and runs that use the agenda up: a completion always answers a state that is not BUSY,
and every step takes one entry of the agenda. -/

namespace Sys2Proof.Machine

/-! ### Completions -/

theorem completeCommand_of_decode {s : State} {i : Instr} (h : decode s.cmdw = .ok i) :
    completeCommand s = exec i s := by
  simp [completeCommand, h]

/-- No command stops: each arm of `exec` ends in a completion (R69). -/
theorem exec_next (i : Instr) (s : State) : ∃ t, exec i s = .next t := by
  cases i <;> exact ⟨_, rfl⟩

/-- What every completion leaves, legal word or not: BUSY = 0 and DONE = 1, the agenda as it was, and nothing else written
when ERR is not OK (R63, R69, R70). -/
theorem completeCommand_next (s : State) :
    ∃ t, completeCommand s = .next t ∧ t.busy = false ∧ t.done = true ∧ t.agenda = s.agenda ∧
      (t.err ≠ .ok → t = finish t.err s) := by
  cases hd : decode s.cmdw with
  | error e =>
    have hnone : ∀ i, decode s.cmdw ≠ .ok i := fun i hi => nomatch hd.symm.trans hi
    exact ⟨_, completeCommand_of_not_decode hnone, rfl, rfl, rfl, fun _ => rfl⟩
  | ok i =>
    obtain ⟨t, ht⟩ := exec_next i s
    refine ⟨t, (completeCommand_of_decode hd).trans ht, ?_⟩
    obtain ⟨e, -, rfl⟩ | ⟨s', hw, rfl⟩ := exec_cases ht
    · exact ⟨rfl, rfl, rfl, fun _ => rfl⟩
    · obtain ⟨-, -, -, -, -, -, hagenda, -⟩ := hw.host_registers_eq
      exact ⟨rfl, rfl, hagenda, fun hok => absurd rfl hok⟩

/-- With BUSY = 1, `rst` released and ENGINE's turn next, the step is the completion (R69). -/
theorem step_engineNext_busy {s : State} (hbusy : s.busy = true) (hrst : s.rst = false) (hnext : engineNext s) :
    step s = completeCommand (taken s) := by
  rw [step_engineNext hnext, engineTurn_busy (s := taken s) hbusy hrst]

theorem withFetchWord_engineNext (s : State) (nbits w : Nat) : engineNext (s.withFetchWord nbits w) := .inr ⟨_, rfl⟩

/-- With its turn taken, a placed word is an accepted one (R68), `rst` released. -/
theorem taken_withFetchWord (s : State) (nbits w : Nat) :
    taken (s.withFetchWord nbits w) =
      { s with cmdw := tableWord nbits w, busy := true, done := false, rst := false } := rfl

theorem decode_of_decodeTableWord {nbits w : Nat} {i : Instr} (h : decodeTableWord nbits w = some i) :
    decode (tableWord nbits w) = .ok i := by
  unfold decodeTableWord at h
  split at h
  case h_1 j hj => rw [hj, Option.some.inj h]
  case h_2 => cases h

/-! ### NOP -/

/-- NOP is the only command with OP 0x00 (R61). -/
theorem eq_nop_of_opcodeOf_eq_zero {i : Instr} (h : opcodeOf i = 0) : i = .nop := by
  cases i with
  | nop => rfl
  | _ => simp [opcodeOf] at h

theorem decode_nop_iff (w : Word) : decode w = .ok .nop ↔ w = 0 :=
  ⟨fun h => (encode_of_decode h).symm, fun h => h ▸ rfl⟩

theorem not_decode_of_opField_eq_zero {w : Word} (hop : opField w = 0) (hw : w ≠ 0) (i : Instr) : decode w ≠ .ok i := by
  intro hi
  obtain ⟨-, hopi, -⟩ := decode_eq_ok_iff.mp hi
  obtain rfl := eq_nop_of_opcodeOf_eq_zero (hopi.symm.trans hop)
  exact hw ((decode_nop_iff w).mp hi)

/-! ### The agenda and runs -/

/-- No host write reaches the agenda. -/
theorem hostWrite_agenda (r : Reg) (v : Word) (s : State) : (hostWrite r v s).agenda = s.agenda := by
  obtain ⟨-, h⟩ | ⟨-, h⟩ | ⟨-, -, h⟩ | ⟨-, -, h⟩ | ⟨-, -, -, h⟩ := hostWrite_cases r v s <;> rw [h]
  · simp
  · simp
  · simp
  · cases r <;> rfl

theorem releaseReset_agenda (s : State) : (releaseReset s).agenda = s.agenda := by
  unfold releaseReset
  split <;> rfl

/-- ENGINE's turn leaves the rest of the agenda. -/
theorem engineTurn_agenda {s t : State} (h : engineTurn s = .next t) : t.agenda = s.agenda := by
  obtain rfl | ⟨-, -, ⟨e, -, rfl⟩ | ⟨i, s', -, hw, rfl⟩⟩ := engineTurn_cases h
  · rfl
  · rfl
  · obtain ⟨-, -, -, -, -, -, hagenda, -⟩ := hw.host_registers_eq
    exact hagenda

/-- Every step takes exactly the first entry of the agenda (log 2). -/
theorem step_agenda {s t : State} (h : step s = .next t) : t.agenda = s.agenda.tail := by
  obtain ⟨-, hturn⟩ | ⟨off, rest, -, -, -, -, rfl⟩ | ⟨off, v, rest, -, -, -, -, rfl⟩ | ⟨rest, -, rfl⟩ |
    ⟨rest, -, rfl⟩ := step_cases h
  · exact engineTurn_agenda hturn
  · rfl
  · exact hostWrite_agenda _ v (taken s)
  · rfl
  · exact releaseReset_agenda (taken s)

theorem run_succ_next {n : Nat} {s t : State} (h : Host.Core.run core (n + 1) s = .next t) :
    ∃ u, step s = .next u ∧ Host.Core.run core n u = .next t := by
  simp only [Host.Core.run] at h
  split at h
  case h_1 u hu => exact ⟨u, hu, h⟩
  case h_2 => cases h
  case h_3 => cases h

/-- A command in flight is not under `rst` (R137). -/
theorem BlockInvariant.rst_of_busy {s : State} (h : BlockInvariant s) (hbusy : s.busy = true) : s.rst = false := by
  refine Bool.eq_false_iff.mpr fun hrst => ?_
  have hidle : s.busy = false := congrArg State.busy (h.reset_held hrst)
  exact absurd (hbusy.symm.trans hidle) nofun

/-- After ENGINE's turn no command is in flight. -/
theorem BlockInvariant.not_busy_of_engineTurn {s t : State} (h : BlockInvariant s) (ht : Machine.engineTurn s = .next t) :
    t.busy = false := by
  cases hb : s.busy with
  | false =>
    rw [engineTurn_idle hb] at ht
    cases ht
    exact hb
  | true =>
    rw [Machine.engineTurn_busy hb (h.rst_of_busy hb)] at ht
    obtain ⟨u, hu, hidle, -⟩ := completeCommand_next s
    cases hu.symm.trans ht
    exact hidle

/-- A run of one step more than the agenda has entries ends with ENGINE's turn on an empty agenda. -/
theorem run_agenda_completes {s t : State} (h : BlockInvariant s)
    (hrun : Host.Core.run core (s.agenda.length + 1) s = .next t) : t.busy = false ∧ t.agenda = [] := by
  induction hn : s.agenda generalizing s with
  | nil =>
    rw [hn] at hrun
    obtain ⟨u, hstep, hu⟩ := run_succ_next hrun
    cases hu
    rw [step_nil hn] at hstep
    exact ⟨h.not_busy_of_engineTurn hstep, (engineTurn_agenda hstep).trans hn⟩
  | cons e rest ih =>
    obtain ⟨u, hstep, hu⟩ := run_succ_next hrun
    have hagenda : u.agenda = rest := by rw [step_agenda hstep, hn]; rfl
    have hlen : s.agenda.length = u.agenda.length + 1 := by rw [hn, hagenda]; rfl
    rw [hlen] at hu
    exact ih (stepKeepsTheInvariant s u h hstep) hu hagenda

end Sys2Proof.Machine
end

section
/-! The statements about ENGINE's turn, NOP, and the life of an accepted command. -/

namespace Sys2Proof.Machine

/-- Settles O6: ENGINE's turn is the completion of the decoded word, and `withFetchWord` places such a turn first. -/
theorem stepRunsTheDecodedCommand : Obligations.StepRunsTheDecodedCommand := by
  constructor
  · intro s i hbusy hrst hnext hi
    rw [step_engineNext_busy hbusy hrst hnext, completeCommand_of_decode (s := taken s) hi]
  · intro s nbits w i hi
    rw [step_engineNext_busy rfl rfl (withFetchWord_engineNext s nbits w), taken_withFetchWord]
    exact completeCommand_of_decode (decode_of_decodeTableWord hi)

/-- Settles O7, from what every completion leaves. -/
theorem engineCompletesExactlyWhenBusy : Obligations.EngineCompletesExactlyWhenBusy := by
  constructor
  · intro s hidle hnext
    rw [step_engineNext hnext, engineTurn_idle (s := taken s) hidle]
  · intro s hbusy hrst hnext
    obtain ⟨t, ht, hb, hd, ha, herr⟩ := completeCommand_next (taken s)
    refine ⟨t, (step_engineNext_busy hbusy hrst hnext).trans ht, hb, hd, ha, herr, fun hnone => ?_, fun i hi => ?_⟩
    · cases (completeCommand_of_not_decode (s := taken s) hnone).symm.trans ht
      rfl
    · exact (completeCommand_of_decode (s := taken s) hi).symm.trans ht

/-- Settles O11: a word with OP 0x00 can only be the word of NOP, which is 0. -/
theorem nopOnlyCompletes : Obligations.NopOnlyCompletes := by
  refine ⟨decode_nop_iff, fun _ => rfl, fun w s hop hw => ?_, fun t ht => ?_⟩
  · exact completeCommand_of_not_decode (s := { s with cmdw := w }) (not_decode_of_opField_eq_zero hop hw)
  · cases ht
    decide

/-- Settles O46, by induction on the agenda. -/
theorem everyAcceptedCommandCompletes : Obligations.EveryAcceptedCommandCompletes :=
  fun _ _ h hrun => run_agenda_completes h hrun

end Sys2Proof.Machine
end

section
/-! SUPPORT. The window at its aligned offsets: which register stands at each, and what a read and a write there are in
the terms of R66 and R67. -/

namespace Sys2Proof.Machine

/-! ### Offsets and registers -/

/-- An aligned offset of the window is its register's own offset, or it is reserved and the map does not list it (R16, R50). -/
theorem windowOffset_cases {off : Nat} (hoff : off < 4096) (h4 : off % 4 = 0) :
    off = offsetOfReg (regAt off) ∨ (reservedOffset off ∧ regAt off = .reserved) := by
  obtain ⟨k, rfl⟩ := Nat.dvd_of_mod_eq_zero h4
  by_cases hk : k < 48
  · have hmap : ∀ k < 48, 4 * k = offsetOfReg (regAt (4 * k)) ∨
        (reservedOffset (4 * k) ∧ regAt (4 * k) = .reserved) := by decide
    exact hmap k hk
  · have hres : reservedOffset (4 * k) := .inr (.inr (by omega))
    exact .inr ⟨hres, regAt_reservedOffset hres⟩

/-- Only the offset of a register that the map lists leads to it. -/
theorem offset_eq_of_regAt_eq {off : Nat} {r : Reg} (hoff : off < 4096) (h4 : off % 4 = 0) (h : regAt off = r)
    (hr : r ≠ .reserved) : off = offsetOfReg r := by
  obtain hmap | ⟨-, hreg⟩ := windowOffset_cases hoff h4
  · rwa [h] at hmap
  · exact absurd (h.symm.trans hreg) hr

/-- The guarded registers are the ones at the guarded offsets (R16, R68). -/
theorem guardedOffset_offsetOfReg (r : Reg) : guardedOffset (offsetOfReg r) ↔ r.guarded = true := by
  unfold guardedOffset
  cases r with
  | h k => simp only [offsetOfReg, Reg.guarded, iff_true]; omega
  | digest k => simp only [offsetOfReg, Reg.guarded, Bool.false_eq_true, iff_false]; omega
  | data k => simp only [offsetOfReg, Reg.guarded, iff_true]; omega
  | _ => decide

theorem guarded_regAt_iff {off : Nat} (hoff : off < 4096) (h4 : off % 4 = 0) :
    (regAt off).guarded = true ↔ guardedOffset off := by
  obtain h | ⟨hres, hreg⟩ := windowOffset_cases hoff h4
  · rw [← guardedOffset_offsetOfReg, ← h]
  · have hno : ¬ guardedOffset off := by unfold guardedOffset; omega
    simp [hreg, Reg.guarded, hno]

/-- `H0..H4` stand at 0x040..0x050. -/
theorem exists_regAt_h {off : Nat} (h4 : off % 4 = 0) (h : 0x040 ≤ off ∧ off ≤ 0x050) :
    ∃ k : Fin 5, off = 0x040 + 4 * k.val ∧ regAt off = .h k := by
  obtain ⟨k, rfl⟩ : ∃ k : Fin 5, off = 0x040 + 4 * k.val := ⟨⟨(off - 0x040) / 4, by omega⟩, by simp only; omega⟩
  exact ⟨k, rfl, regAt_offsetOfReg (.h k)⟩

/-- `DATA0..DATA15` stand at 0x080..0x0BC. -/
theorem exists_regAt_data {off : Nat} (h4 : off % 4 = 0) (h : 0x080 ≤ off ∧ off ≤ 0x0BC) :
    ∃ k : Fin 16, off = 0x080 + 4 * k.val ∧ regAt off = .data k := by
  obtain ⟨k, rfl⟩ : ∃ k : Fin 16, off = 0x080 + 4 * k.val := ⟨⟨(off - 0x080) / 4, by omega⟩, by simp only; omega⟩
  exact ⟨k, rfl, regAt_offsetOfReg (.data k)⟩

/-! ### Reads -/

/-- Joining two fields shifts the upper one up by the width of the lower one. -/
theorem toNat_append_eq_add {m n : Nat} (x : BitVec m) (y : BitVec n) : (x ++ y).toNat = x.toNat * 2 ^ n + y.toNat := by
  rw [BitVec.toNat_append, ← Nat.shiftLeft_add_eq_or_of_lt y.isLt, Nat.shiftLeft_eq]

theorem toNat_ofBool_eq_bitValue (b : Bool) : (BitVec.ofBool b).toNat = bitValue b := by cases b <;> rfl

theorem keySet_eq (s : State) : keySet s = decide (0 < s.keyLen.val) :=
  decide_eq_decide.mpr (by rw [Nat.pos_iff_ne_zero, ne_eq, Fin.ext_iff]; rfl)

theorem ctrlWord_eq (s : State) : ctrlWord s = BitVec.ofNat 32 (bitValue s.ie) := by
  cases h : s.ie <;> simp [ctrlWord, h, bitValue]

/-- STATUS as its fields put together is the sum R66 writes. -/
theorem statusWord_eq (s : State) : statusWord s = BitVec.ofNat 32 (statusValue s) := by
  have hsum : (statusWord s).toNat = statusValue s := by
    simp only [statusWord, toNat_append_eq_add, toNat_ofBool_eq_bitValue, keySet_eq, statusValue,
      BitVec.ofNat_eq_ofNat, BitVec.toNat_zero]
    omega
  rw [← hsum, BitVec.ofNat_toNat, BitVec.setWidth_eq]

theorem windowValue_h (s : State) (k : Fin 5) : windowValue s (0x040 + 4 * k.val) = s.stream.h[k.val] := by
  unfold windowValue
  repeat rw [if_neg (by omega)]
  rw [if_pos (by omega), Nat.add_sub_cancel_left, Nat.mul_div_cancel_left _ (by decide)]
  simp

theorem windowValue_digest (s : State) (k : Fin 5) :
    windowValue s (0x060 + 4 * k.val) = be32 s.dig.toList (4 * k.val) := by
  unfold windowValue
  repeat rw [if_neg (by omega)]
  rw [if_pos (by omega), Nat.add_sub_cancel_left]

theorem windowValue_data (s : State) (k : Fin 16) :
    windowValue s (0x080 + 4 * k.val) = be32 s.data.toList (4 * k.val) := by
  unfold windowValue
  repeat rw [if_neg (by omega)]
  rw [if_pos (by omega), Nat.add_sub_cancel_left]

/-- R66, register by register. -/
theorem windowValue_offsetOfReg (s : State) (r : Reg) : windowValue s (offsetOfReg r) = hostRead r s := by
  cases r with
  | ctrl => exact (ctrlWord_eq s).symm
  | status => exact (statusWord_eq s).symm
  | mlenLo =>
    apply BitVec.eq_of_toNat_eq
    simp [windowValue, offsetOfReg, hostRead, BitVec.extractLsb'_toNat]
  | mlenHi =>
    apply BitVec.eq_of_toNat_eq
    simp [windowValue, offsetOfReg, hostRead, BitVec.extractLsb'_toNat, Nat.shiftRight_eq_div_pow]
  | h k => exact windowValue_h s k
  | digest k => exact windowValue_digest s k
  | data k => exact windowValue_data s k
  | _ => rfl

theorem windowValue_reservedOffset {off : Nat} (s : State) (h : reservedOffset off) : windowValue s off = 0 := by
  unfold windowValue
  repeat rw [if_neg (by omega)]

theorem windowValue_eq_hostRead {off : Nat} (hoff : off < 4096) (h4 : off % 4 = 0) (s : State) :
    windowValue s off = hostRead (regAt off) s := by
  obtain h | ⟨hres, hreg⟩ := windowOffset_cases hoff h4
  · conv_lhs => rw [h]
    exact windowValue_offsetOfReg s _
  · rw [windowValue_reservedOffset s hres, hreg]
    rfl

/-! ### Writes -/

/-- Clearing a flag by writing 1 to it (R67). -/
theorem and_not_eq_ite (flag written : Bool) : (flag && !written) = if written then false else flag := by
  cases written <;> simp

theorem set_eq_setIfInBounds {n : Nat} (v : Vector Word n) (k : Fin n) (x : Word) :
    v.set k.val x = v.setIfInBounds k.val x := by
  apply Vector.toList_inj.mp
  rw [Vector.toList_set, Vector.toList_setIfInBounds]

/-- R67, case by case of the offset. -/
theorem windowWrite_hostWrite {off : Nat} (hoff : off < 4096) (h4 : off % 4 = 0) (v : Word) (s : State) :
    windowWrite off v s (hostWrite (regAt off) v s) := by
  refine ⟨?ctrl, ?status, ?dropped, fun hidle => ⟨?cmd, ?argLo, ?argHi, ?h, ?data⟩, ?other⟩
  case ctrl => rintro rfl; rfl
  case status =>
    rintro rfl
    change writeStatus v s = _
    simp only [writeStatus, and_not_eq_ite]
  case dropped =>
    intro hguard hbusy
    exact hostWrite_guarded_busy v ((guarded_regAt_iff hoff h4).mpr hguard) hbusy
  case cmd => rintro rfl; exact hostWrite_guarded_idle v rfl hidle
  case argLo => rintro rfl; exact hostWrite_guarded_idle v rfl hidle
  case argHi => rintro rfl; exact hostWrite_guarded_idle v rfl hidle
  case h =>
    intro hrange
    obtain ⟨k, rfl, hreg⟩ := exists_regAt_h h4 hrange
    rw [hreg, hostWrite_guarded_idle v rfl hidle, Nat.add_sub_cancel_left, Nat.mul_div_cancel_left _ (by decide),
      ← set_eq_setIfInBounds]
    rfl
  case data =>
    intro hrange
    obtain ⟨k, rfl, hreg⟩ := exists_regAt_data h4 hrange
    rw [hreg, hostWrite_guarded_idle v rfl hidle, Nat.add_sub_cancel_left]
    exact ⟨setWord_toList s.data k v, rfl⟩
  case other =>
    intro hguard hctrl hstatus
    obtain ⟨hr, -⟩ | ⟨hr, -⟩ | ⟨hr, -⟩ | ⟨hr, -⟩ | ⟨-, -, -, hw⟩ := hostWrite_cases (regAt off) v s
    · exact absurd (offset_eq_of_regAt_eq hoff h4 hr nofun) hctrl
    · exact absurd (offset_eq_of_regAt_eq hoff h4 hr nofun) hstatus
    · exact absurd ((guarded_regAt_iff hoff h4).mp hr) hguard
    · exact absurd ((guarded_regAt_iff hoff h4).mp hr) hguard
    · exact hw

end Sys2Proof.Machine
end

section
/-! The statements about host reads and host writes. -/

namespace Sys2Proof.Machine

/-- Settles O36: the register at an offset reads what R66 lists for the offset. -/
theorem hostReadReturnsTheListedValues : Obligations.HostReadReturnsTheListedValues := by
  intro s off rest hoff h4 hrst h
  rw [step_read hoff h4 hrst h, windowValue_eq_hostRead hoff h4]

/-- Settles O37, by the cases of the offset. -/
theorem hostWriteDoesWhatItsCaseSays : Obligations.HostWriteDoesWhatItsCaseSays :=
  fun s _ v rest hoff h4 hrst h =>
    ⟨_, step_write hoff h4 hrst h, windowWrite_hostWrite hoff h4 v { s with agenda := rest }⟩

/-- Settles O38: a guarded write is accepted while BUSY = 0 and dropped while BUSY = 1. -/
theorem acceptanceAndDroppedWrites : Obligations.AcceptanceAndDroppedWrites := by
  intro s v rest hrst
  constructor
  · intro hidle h
    rw [step_write (by decide) (by decide) hrst h]
    exact congrArg _ (hostWrite_guarded_idle (s := { s with agenda := rest }) v rfl hidle)
  · intro off hguard h4 hbusy h
    have hoff : off < 4096 := by unfold guardedOffset at hguard; omega
    rw [step_write hoff h4 hrst h,
      hostWrite_guarded_busy (s := { s with agenda := rest }) v ((guarded_regAt_iff hoff h4).mpr hguard) hbusy]
    rfl

end Sys2Proof.Machine
end

section
/-! SUPPORT. What HOST can change while a command is in flight: CTRL.IE, the flags DONE and OVR, and the model's own fields. -/

namespace Sys2Proof.Machine

/-- With BUSY = 1 a host write reaches only IE, DONE and OVR, and IE only through CTRL (R67, R68). -/
theorem hostWrite_busy_cases {s : State} (hbusy : s.busy = true) (r : Reg) (v : Word) :
    ∃ ie done ovr, hostWrite r v s = { s with ie := ie, done := done, ovr := ovr } ∧ (r ≠ .ctrl → ie = s.ie) := by
  obtain ⟨rfl, h⟩ | ⟨-, h⟩ | ⟨-, -, h⟩ | ⟨-, hidle, -⟩ | ⟨-, -, -, h⟩ := hostWrite_cases r v s
  · exact ⟨_, _, _, h, fun hr => absurd rfl hr⟩
  · exact ⟨_, _, _, h, fun _ => rfl⟩
  · exact ⟨_, _, _, h, fun _ => rfl⟩
  · exact absurd (hbusy.symm.trans hidle) nofun
  · exact ⟨_, _, _, h, fun _ => rfl⟩

/-- With BUSY = 1, a step that is neither ENGINE's turn nor an edge of `rst` changes only IE, DONE and OVR of the block, and IE
only by a write to CTRL. -/
theorem step_busy_host_cases {s t : State} (hbusy : s.busy = true) (hstep : step s = .next t) (hnext : ¬ engineNext s)
    (hedge : ∀ rest, s.agenda ≠ .assertRst :: rest ∧ s.agenda ≠ .releaseRst :: rest) :
    ∃ ie done ovr rdata, t = { taken s with ie := ie, done := done, ovr := ovr, rdata := rdata } ∧
      ((∀ v rest, s.agenda ≠ .write (Config.base + 0x008) .bits32 v :: rest) → ie = s.ie) := by
  obtain ⟨hturn, -⟩ | ⟨off, rest, -, -, -, -, rfl⟩ | ⟨off, v, rest, ha, hoff, h4, -, rfl⟩ | ⟨rest, ha, -⟩ |
    ⟨rest, ha, -⟩ := step_cases hstep
  · exact absurd hturn hnext
  · exact ⟨_, _, _, _, rfl, fun _ => rfl⟩
  · obtain ⟨ie, done, ovr, hw, hie⟩ := hostWrite_busy_cases (s := taken s) hbusy (regAt off) v
    refine ⟨ie, done, ovr, _, hw, fun hctrl => hie fun hr => ?_⟩
    obtain rfl : off = 0x008 := offset_eq_of_regAt_eq hoff h4 hr nofun
    exact hctrl v rest ha
  · exact absurd ha (hedge rest).1
  · exact absurd ha (hedge rest).2

/-- The mask 0xFFFFFFF9 takes OVR and DONE out of STATUS, as STATUS is put together (R20). -/
theorem and_ovrDoneMask (x : BitVec 29) (ovr done busy : BitVec 1) :
    (x ++ ovr ++ done ++ busy) &&& (0xFFFFFFF9 : Word) = x ++ 0#1 ++ 0#1 ++ busy := by
  have hmask : (0xFFFFFFF9 : Word) = BitVec.allOnes 29 ++ 0#1 ++ 0#1 ++ BitVec.allOnes 1 := by decide
  rw [hmask, BitVec.and_append, BitVec.and_append, BitVec.and_append, BitVec.and_allOnes, BitVec.and_allOnes,
    BitVec.and_zero, BitVec.and_zero]

/-- The mask 0xFFFFFFFC takes DONE and BUSY out of STATUS, and 1 puts BUSY in (R20). -/
theorem and_doneBusyMask_or_one (x : BitVec 30) (done busy : BitVec 1) :
    (x ++ done ++ busy) &&& (0xFFFFFFFC : Word) ||| 1 = x ++ 0#1 ++ 1#1 := by
  have hmask : (0xFFFFFFFC : Word) = BitVec.allOnes 30 ++ 0#1 ++ 0#1 := by decide
  have hone : (1 : Word) = 0#30 ++ 0#1 ++ 1#1 := by decide
  rw [hmask, hone, BitVec.and_append, BitVec.and_append, BitVec.or_append, BitVec.or_append, BitVec.and_allOnes,
    BitVec.and_zero, BitVec.and_zero, BitVec.or_zero, BitVec.or_zero, BitVec.zero_or]

/-- STATUS but for OVR and DONE shows neither of them, nor IE, the agenda or the last value read (R20). -/
theorem statusWord_masked (s : State) (ie done ovr : Bool) (rdata : Option Word) :
    statusWord { taken s with ie := ie, done := done, ovr := ovr, rdata := rdata } &&& 0xFFFFFFF9 =
      statusWord s &&& 0xFFFFFFF9 :=
  (and_ovrDoneMask _ _ _ _).trans (and_ovrDoneMask _ _ _ _).symm

/-- An acceptance clears DONE and sets BUSY in STATUS and leaves its other bits (R68). -/
theorem statusWord_accept (v : Word) (s : State) : statusWord (accept v s) = (statusWord s &&& 0xFFFFFFFC) ||| 1 :=
  (and_doneBusyMask_or_one _ _ _).symm

end Sys2Proof.Machine
end

section
/-! The statement about reads while a command is in flight. -/

namespace Sys2Proof.Machine

/-- Settles O41: an acceptance and HOST's steps after it reach no register but CTRL and STATUS. -/
theorem readsWhileBusyGiveTheOldValues : Obligations.ReadsWhileBusyGiveTheOldValues := by
  constructor
  · intro s v r hidle
    rw [hostWrite_guarded_idle (r := .cmd) v rfl hidle]
    refine ⟨fun hstatus => ?_, statusWord_accept v s⟩
    cases r with
    | status => exact absurd rfl hstatus
    | _ => rfl
  · intro s t hbusy hstep hnext hedge
    obtain ⟨ie, done, ovr, rdata, rfl, hie⟩ := step_busy_host_cases hbusy hstep hnext hedge
    refine ⟨hbusy, rfl, fun r hctrl hstatus => ?_, ?_, fun hno => ?_⟩
    · cases r with
      | ctrl => exact absurd rfl hctrl
      | status => exact absurd rfl hstatus
      | _ => rfl
    · exact statusWord_masked s ie done ovr rdata
    · rw [hie hno]
      rfl

end Sys2Proof.Machine
end

section
/-! SUPPORT. The compressor against the rules of its words: the round function and the round constant range by range, the list
`schedule` as the words of R80 in order, and the fold over that list as the rounds of R83 in order. -/

namespace Sys2Proof.Machine

/-! ### The round function and the round constant by their ranges (R81, R82) -/

section
variable {t : Nat}

theorem roundFunction_choose (h : t < 20) (b c d : Word) : roundFunction t b c d = (b &&& c) ||| (~~~b &&& d) := by
  rw [roundFunction, if_pos h]

theorem roundFunction_parity (h : 20 ≤ t ∧ t < 40 ∨ 60 ≤ t) (b c d : Word) : roundFunction t b c d = b ^^^ c ^^^ d := by
  rw [roundFunction, if_neg (by omega)]
  split
  · rfl
  · rw [if_neg (by omega)]

theorem roundFunction_majority (h : 40 ≤ t) (h60 : t < 60) (b c d : Word) :
    roundFunction t b c d = (b &&& c) ||| (b &&& d) ||| (c &&& d) := by
  rw [roundFunction, if_neg (by omega), if_neg (by omega), if_pos h60]

theorem roundConstant_below_20 (h : t < 20) : roundConstant t = 0x5A827999 := by
  rw [roundConstant, if_pos h]

theorem roundConstant_below_40 (h : 20 ≤ t) (h40 : t < 40) : roundConstant t = 0x6ED9EBA1 := by
  rw [roundConstant, if_neg (by omega), if_pos h40]

theorem roundConstant_below_60 (h : 40 ≤ t) (h60 : t < 60) : roundConstant t = 0x8F1BBCDC := by
  rw [roundConstant, if_neg (by omega), if_neg (by omega), if_pos h60]

theorem roundConstant_from_60 (h : 60 ≤ t) : roundConstant t = 0xCA62C1D6 := by
  rw [roundConstant, if_neg (by omega), if_neg (by omega), if_neg (by omega)]

end

/-! ### Choose and majority, bit by bit (R86) -/

/-- At each bit at most one of the two terms of choose is 1, so `|` and `^` agree. -/
theorem choose_or_eq_xor (x y z : Word) : (x &&& y) ||| (~~~x &&& z) = (x &&& y) ^^^ (~~~x &&& z) := by
  ext i
  simp only [BitVec.getElem_or, BitVec.getElem_xor, BitVec.getElem_and, BitVec.getElem_not]
  cases x[i]
  · simp
  · simp

/-- At each bit one of the three terms of majority is 1, or all three are, or none is. -/
theorem majority_or_eq_xor (x y z : Word) :
    (x &&& y) ||| (x &&& z) ||| (y &&& z) = (x &&& y) ^^^ (x &&& z) ^^^ (y &&& z) := by
  ext i
  simp only [BitVec.getElem_or, BitVec.getElem_xor, BitVec.getElem_and]
  cases x[i]
  · simp
  · cases y[i]
    · simp
    · simp

/-- The last two terms of majority share `z`. -/
theorem majority_eq_factored (x y z : Word) :
    (x &&& y) ||| (x &&& z) ||| (y &&& z) = (x &&& y) ||| (z &&& (x ||| y)) := by
  rw [BitVec.or_assoc, ← BitVec.and_or_distrib_right, BitVec.and_comm z]

/-! ### The message schedule (R80) -/

/-- The newest word of the first `m` words of `W` is `W (m - 1)`, and so back to the oldest. -/
theorem getD_reverse_map_range (W : Nat → Word) {m k : Nat} (hk : k < m) :
    ((List.range m).map W).reverse.getD k 0 = W (m - 1 - k) := by
  simp [List.getD_eq_getElem?_getD, hk]

/-- `nextScheduleWord` looks back 3, 8, 14 and 16 words. -/
theorem nextScheduleWord_reverse_map_range (W : Nat → Word) {m : Nat} (h16 : 16 ≤ m) :
    nextScheduleWord ((List.range m).map W).reverse = rotl (W (m - 3) ^^^ W (m - 8) ^^^ W (m - 14) ^^^ W (m - 16)) 1 := by
  rw [nextScheduleWord, getD_reverse_map_range W (by omega), getD_reverse_map_range W (by omega),
    getD_reverse_map_range W (by omega), getD_reverse_map_range W (by omega)]
  rfl

section
variable {block : Vector Byte 64} {W : Nat → Word} (hW : isSchedule block W)
include hW

theorem blockWords_eq_of_isSchedule : blockWords block = (List.range 16).map W :=
  List.map_congr_left fun _ hj => (hW.1 _ (List.mem_range.mp hj)).symm

theorem extendSchedule_eq_of_isSchedule {n m : Nat} (h16 : 16 ≤ m) (h80 : m + n ≤ 80) :
    extendSchedule n ((List.range m).map W).reverse = ((List.range (m + n)).map W).reverse := by
  induction n generalizing m with
  | zero => rfl
  | succ n ih =>
    have hnext : nextScheduleWord ((List.range m).map W).reverse = W m :=
      (nextScheduleWord_reverse_map_range W h16).trans (hW.2 m (by omega) h16).symm
    have hgrow : W m :: ((List.range m).map W).reverse = ((List.range (m + 1)).map W).reverse := by
      simp [List.range_succ]
    rw [extendSchedule, hnext, hgrow, ih (by omega) (by omega), Nat.add_right_comm, Nat.add_assoc]

/-- Any words with the recurrence of R80 are the schedule. -/
theorem schedule_eq_of_isSchedule : schedule block = (List.range 80).map W := by
  rw [schedule, blockWords_eq_of_isSchedule hW, extendSchedule_eq_of_isSchedule hW (Nat.le_refl 16) (Nat.le_refl 80),
    List.reverse_reverse]

end

/-! ### The rounds (R83) -/

section
variable {h : Vector Word 5} {W : Nat → Word} {v : Nat → Working} (hv : isRoundTrace h W v)
include hv

theorem workingOf_eq_of_isRoundTrace : workingOf h = v 0 := hv.1.symm

/-- The new `a` of every round is one sum, with the round function and the constant of the round's range (R81, R82). -/
theorem a_succ_of_isRoundTrace {t : Nat} (ht : t < 80) :
    (v (t + 1)).a = rotl (v t).a 5 + roundFunction t (v t).b (v t).c (v t).d + (v t).e + roundConstant t + W t := by
  obtain ⟨-, -, -, -, h0, h20, h40, h60⟩ := hv.2 t ht
  have hranges : t < 20 ∨ (20 ≤ t ∧ t < 40) ∨ (40 ≤ t ∧ t < 60) ∨ 60 ≤ t := by omega
  obtain hlt | ⟨hge, hlt⟩ | ⟨hge, hlt⟩ | hge := hranges
  · rw [roundFunction_choose hlt, roundConstant_below_20 hlt, h0 (by omega)]
  · rw [roundFunction_parity (.inl ⟨hge, hlt⟩), roundConstant_below_40 hge hlt, h20 hge (by omega)]
  · rw [roundFunction_majority hge hlt, roundConstant_below_60 hge hlt, h40 hge (by omega)]
  · rw [roundFunction_parity (.inr hge), roundConstant_from_60 hge, h60 hge]

theorem roundStep_eq_of_isRoundTrace {t : Nat} (ht : t < 80) : roundStep t (W t) (v t) = v (t + 1) := by
  obtain ⟨he, hd, hc, hb, -⟩ := hv.2 t ht
  rw [roundStep, ← a_succ_of_isRoundTrace hv ht, ← hb, ← hc, ← hd, ← he]

theorem runRounds_eq_of_isRoundTrace {n t : Nat} (h80 : t + n ≤ 80) :
    runRounds t ((List.range' t n).map W) (v t) = v (t + n) := by
  induction n generalizing t with
  | zero => rfl
  | succ n ih =>
    rw [List.range'_succ, List.map_cons, runRounds, roundStep_eq_of_isRoundTrace hv (by omega), ih (by omega),
      Nat.add_right_comm, Nat.add_assoc]

end

end Sys2Proof.Machine
end

section
/-! The statements about the compressor and SHA_COMPRESS. -/

namespace Sys2Proof.Machine

/-- Settles O13: the schedule is the words of the recurrence, and the rounds over them run along the trace from its start. -/
theorem compressionFollowsScheduleAndRounds : Obligations.CompressionFollowsScheduleAndRounds := by
  intro h block W v hW hv
  have hrounds : runRounds 0 (schedule block) (workingOf h) = v 80 := by
    rw [schedule_eq_of_isSchedule hW, workingOf_eq_of_isRoundTrace hv, List.range_eq_range']
    exact runRounds_eq_of_isRoundTrace hv (Nat.le_refl 80)
  rw [compress, hrounds, feedForward]

/-- Settles O14: each form agrees with that of R81 at every bit. -/
theorem chooseAndMajorityHaveTheirOtherForms : Obligations.ChooseAndMajorityHaveTheirOtherForms := by
  refine fun t b c d => ⟨fun h20 => ?_, fun h40 h60 => ?_⟩
  · rw [roundFunction_choose h20, choose_or_eq_xor]
  · rw [roundFunction_majority h40 h60]
    exact ⟨majority_or_eq_xor b c d, majority_eq_factored b c d⟩

/-- Settles O15: the command's rule never answers an error, so its write to H stands in every MODE. -/
theorem shaCompressCompressesDataIntoH : Obligations.ShaCompressCompressesDataIntoH := by
  intro s
  have hexec : exec .shaCompress s = execShaCompress s := rfl
  rw [hexec, execShaCompress, complete_ok, finish]

end Sys2Proof.Machine
end

section
/-! SUPPORT. The streaming hasher: `finalize()` as the absorption of the padding, each outcome of the SHA-1 stream commands as an
equation, and a message fed in chunks. -/

namespace Sys2Proof.Machine

/-! ### Buffers given by their bytes -/

theorem padTo_eq_of_toList_eq {n : Nat} {S : List Byte} {v : Vector Byte n} (h : v.toList = S) : padTo n S = v :=
  h ▸ padTo_toList_self v

/-- 64 bytes are one block. -/
theorem blocksOf_single {B : List Byte} (h : B.length = 64) : Reference.blocksOf B = [padTo 64 B] := by
  have hnone : Reference.blocksOf [] = [] := blocksOf_of_lt (by decide)
  have hblocks := blocksOf_append [] h
  rwa [List.append_nil, hnone] at hblocks

/-! ### absorb -/

theorem absorb_singleton (x : Byte) (st : HashStream) : absorb [x] st = absorbByte x st := rfl

/-- The message bytes in PBUF are the first FILL bytes, however FILL is known (R36). -/
theorem take_pbuf_of_fill_eq {st : HashStream} {n : Nat} (h : st.fill.val = n) : st.pbuf.toList.take n = st.partialBlock :=
  h ▸ rfl

/-- While the bytes fit into PBUF nothing is compressed (R91). -/
theorem absorb_h_of_room {S : List Byte} {st : HashStream} (room : st.fill.val + S.length < 64) : (absorb S st).h = st.h := by
  have hlen : (st.partialBlock ++ S).length < 64 := by rw [List.length_append, partialBlock_length]; exact room
  rw [(absorb_spec S st).1, blocksOf_of_lt hlen, List.foldl_nil]

/-! ### finalize -/

/-- The length field is the bit count mod 2^64 (R27, R97). -/
theorem bitLength_eq_ofNat (st : HashStream) : st.bitLength = BitVec.ofNat 64 (8 * st.mlen.toNat) := by
  rw [BitVec.ofNat_mul, BitVec.ofNat_toNat, BitVec.setWidth_eq]
  rfl

theorem partialBlock_marked_length (st : HashStream) : (st.partialBlock ++ [0x80]).length = st.fill.val + 1 := by
  rw [List.length_append, partialBlock_length]
  rfl

/-- With room for the length after the 0x80 byte there is one last block (R95). -/
theorem finalState_oneBlock {st : HashStream} (room : st.fill.val ≤ 55) :
    finalState st =
      compress st.h (padTo 64 (st.partialBlock ++ [0x80] ++ zeros (55 - st.fill.val) ++ bytesOfDWord st.bitLength)) := by
  have hzeros : 56 - (st.fill.val + 1) = 55 - st.fill.val := by omega
  simp only [finalState, partialBlock_marked_length]
  rw [if_neg (by omega), hzeros]

/-- Without it the length goes into a second block (R95). -/
theorem finalState_twoBlocks {st : HashStream} (full : 56 ≤ st.fill.val) :
    finalState st =
      compress (compress st.h (padTo 64 (st.partialBlock ++ [0x80] ++ zeros (63 - st.fill.val))))
        (padTo 64 (zeros 56 ++ bytesOfDWord st.bitLength)) := by
  have hlen := partialBlock_marked_length st
  have hfill := st.fill.isLt
  have hbytes : (padTo 64 (st.partialBlock ++ [0x80])).toList = st.partialBlock ++ [0x80] ++ zeros (63 - st.fill.val) := by
    rw [padTo_toList_of_le (by omega), hlen, Nat.sub_add_eq, Nat.sub_right_comm]
  rw [padTo_eq_of_toList_eq hbytes]
  simp only [finalState, hlen]
  rw [if_pos (by omega)]

/-- What `finalize()` appends to the message: the 0x80 byte, zeros up to the next place for a length field, the length (R92, R95). -/
def HashStream.padding (st : HashStream) : List Byte :=
  [0x80] ++ zeros (Reference.paddingZeros st.fill.val) ++ bytesOfDWord st.bitLength

/-- `finalize()` is the absorption of the padding: it makes up whole blocks, one or two (R92, R95). -/
theorem finalState_eq_absorb_padding (st : HashStream) : finalState st = (absorb st.padding st).h := by
  have hlen := partialBlock_marked_length st
  have hfill := st.fill.isLt
  rw [(absorb_spec st.padding st).1, HashStream.padding, Reference.paddingZeros, ← List.append_assoc, ← List.append_assoc]
  by_cases room : st.fill.val ≤ 55
  · have hzeros : (119 - st.fill.val % 64) % 64 = 55 - st.fill.val := by omega
    have hblock : (st.partialBlock ++ [0x80] ++ zeros (55 - st.fill.val) ++ bytesOfDWord st.bitLength).length = 64 := by
      rw [List.length_append, List.length_append, hlen, zeros_length, bytesOfDWord_length]; omega
    rw [finalState_oneBlock room, hzeros, blocksOf_single hblock]
    rfl
  · have hzeros : (119 - st.fill.val % 64) % 64 = 63 - st.fill.val + 56 := by omega
    have hfirst : (st.partialBlock ++ [0x80] ++ zeros (63 - st.fill.val)).length = 64 := by
      rw [List.length_append, hlen, zeros_length]; omega
    have hlast : (zeros 56 ++ bytesOfDWord st.bitLength).length = 64 := by
      rw [List.length_append, zeros_length, bytesOfDWord_length]
    rw [finalState_twoBlocks (by omega), hzeros, ← zeros_append, ← List.append_assoc, List.append_assoc _ (zeros 56),
      blocksOf_append _ hfirst, blocksOf_single hlast]
    rfl

/-- The padding of a message depends on its length only, so it is the padding `finalize()` appends once the message is absorbed. -/
theorem paddedMessage_eq_append_padding (M : List Byte) :
    Reference.paddedMessage M = M ++ (absorb M HashStream.start).padding := by
  have hfill : (absorb M HashStream.start).fill.val = M.length % 64 := by
    rw [absorb_fill, start_fill, Fin.val_zero, Nat.zero_add]
  have hbits : (absorb M HashStream.start).bitLength = BitVec.ofNat 64 (8 * M.length) := by
    rw [HashStream.bitLength, absorb_mlen, start_mlen, zero_add, BitVec.ofNat_mul]
    rfl
  rw [HashStream.padding, hfill, hbits, Reference.paddedMessage, Reference.paddingZeros, Reference.paddingZeros, Nat.mod_mod,
    List.append_assoc, List.append_assoc, List.append_assoc]

/-- From the initial value, absorbing whole blocks is compressing them in order. -/
theorem absorb_start_h (S : List Byte) :
    (absorb S HashStream.start).h = (Reference.blocksOf S).foldl compress initialValue := by
  rw [(absorb_spec S HashStream.start).1, start_partialBlock, start_h, List.nil_append]

/-! ### The stream commands, outcome by outcome -/

theorem exec_shaInit (s : State) :
    exec .shaInit s = .next (finish .ok { s with stream := HashStream.start, kpad := zeroBytes 64, mode := .hash }) := rfl

theorem exec_shaUpdate (len : Nat) (s : State) : exec (.shaUpdate len) s = execShaUpdate len s := rfl

theorem exec_shaFinal (s : State) : exec .shaFinal s = execShaFinal s := rfl

theorem exec_shaUpdate_seq {s : State} (len : Nat) (idle : s.mode = .idle) :
    exec (.shaUpdate len) s = .next (finish .seq s) := by
  rw [exec_shaUpdate, execShaUpdate, if_pos idle, complete_error]

theorem exec_shaUpdate_badlen {s : State} {len : Nat} (streaming : s.mode ≠ .idle) (long : 64 < len) :
    exec (.shaUpdate len) s = .next (finish .badlen s) := by
  rw [exec_shaUpdate, execShaUpdate, if_neg streaming, if_pos long, complete_error]

theorem exec_shaUpdate_ok {s : State} {len : Nat} (streaming : s.mode ≠ .idle) (fits : len ≤ 64) :
    exec (.shaUpdate len) s = .next (finish .ok { s with stream := absorb (dataBytes len s) s.stream }) := by
  rw [exec_shaUpdate, execShaUpdate, if_neg streaming, if_neg (Nat.not_lt.mpr fits), complete_ok]

theorem exec_shaFinal_seq {s : State} (hmode : s.mode ≠ .hash) : exec .shaFinal s = .next (finish .seq s) := by
  rw [exec_shaFinal, execShaFinal, if_pos hmode, complete_error]

theorem exec_shaFinal_ok {s : State} (plain : s.mode = .hash) :
    exec .shaFinal s =
      .next (finish .ok { s with dig := finalDigest s.stream, stream := s.stream.closed, mode := .idle }) := by
  rw [exec_shaFinal, execShaFinal, if_neg (not_not.mpr plain), complete_ok]

/-- DIGESTk reads as Hk wherever DIG holds the serialized chaining state (R42, R93). -/
theorem hostRead_digest_eq_h {t : State} (hdig : t.dig = serialize t.stream.h) (k : Fin 5) :
    hostRead (.digest k) t = hostRead (.h k) t := by
  have hword := be32_serialize t.stream.h k
  rw [← hdig] at hword
  exact hword

/-! ### Commands one after the other -/

@[simp] theorem andThen_next (s : State) (f : State → Result) : andThen (.next s) f = f s := rfl

/-- A chunked message is absorbed whole into an open stream, plain or keyed; besides it only DATA and the completion's
registers change (R94, R99). -/
theorem feedChunks_absorbs {chunks : List (Vector Byte 64 × Nat)} {s : State} (legal : legalChunks chunks = true)
    (streaming : s.mode ≠ .idle) :
    ∃ data err busy done, feedChunks chunks s =
      .next { s with
        stream := absorb (chunkedMessage chunks) s.stream, data := data, err := err, busy := busy, done := done } := by
  induction chunks generalizing s with
  | nil => exact ⟨s.data, s.err, s.busy, s.done, rfl⟩
  | cons chunk rest ih =>
    obtain ⟨buffer, len⟩ := chunk
    obtain ⟨fits, legalRest⟩ : len ≤ 64 ∧ legalChunks rest = true := by simpa [legalChunks] using legal
    have hupdate := exec_shaUpdate_ok (s := { s with data := buffer }) streaming fits
    obtain ⟨data, err, busy, done, hrest⟩ := ih legalRest
      (s := finish .ok { s with data := buffer, stream := absorb (buffer.toList.take len) s.stream }) streaming
    have hmessage : chunkedMessage ((buffer, len) :: rest) = buffer.toList.take len ++ chunkedMessage rest := rfl
    refine ⟨data, err, busy, done, ?_⟩
    rw [hmessage, absorb_append, feedChunks, hupdate, andThen_next]
    exact hrest

end Sys2Proof.Machine
end

section
/-! The statements about the streaming hasher and its commands. -/

namespace Sys2Proof.Machine

/-- Settles O12: the command's rule never answers an error, so `start()` stands in every MODE. -/
theorem shaInitStartsAPlainStream : Obligations.ShaInitStartsAPlainStream := by
  constructor
  · intro t ht
    cases (exec_shaInit State.reset).symm.trans ht
    decide
  · exact exec_shaInit

/-- Settles O16: a byte finds room or fills PBUF, and `absorb_spec` is the induction over the bytes. -/
theorem absorbCompressesEveryFullBlock : Obligations.AbsorbCompressesEveryFullBlock := by
  refine ⟨fun x st => ?_, absorb_append, fun S st => ?_⟩
  · rw [absorb_singleton]
    refine ⟨absorbByte_mlen x st, fun room => ?_, fun full => ?_⟩
    · obtain ⟨hh, hpartial⟩ := absorbByte_room x st (by omega)
      have hfill : (absorbByte x st).fill.val = st.fill.val + 1 := by rw [absorbByte_fill]; omega
      exact ⟨hfill, hh, (take_pbuf_of_fill_eq hfill).trans hpartial⟩
    · refine ⟨by rw [absorbByte_fill, full], fun block hblock => ?_⟩
      rw [take_pbuf_of_fill_eq full] at hblock
      rw [(absorbByte_full x st (by omega)).1, padTo_eq_of_toList_eq hblock]
  · obtain ⟨hh, hpartial⟩ := absorb_spec S st
    have hfill : (absorb S st).fill.val = (st.partialBlock ++ S).length % 64 := by
      rw [absorb_fill, List.length_append, partialBlock_length]
    exact ⟨hh, hfill, (take_pbuf_of_fill_eq hfill).trans hpartial, absorb_mlen S st⟩

/-- Settles O17, by the two tests of the command in their order. -/
theorem shaUpdateAbsorbsTheFirstLenBytes : Obligations.ShaUpdateAbsorbsTheFirstLenBytes := by
  refine fun len s => ⟨exec_shaUpdate_seq len, exec_shaUpdate_badlen, fun streaming fits => ?_⟩
  have hlen : (dataBytes len s).length = len := by rw [dataBytes_length, Nat.min_eq_left fits]
  refine ⟨_, exec_shaUpdate_ok streaming fits, rfl, ?_, ?_, fun room => ?_⟩
  · exact (absorb_fill _ s.stream).trans (by rw [hlen])
  · exact (absorb_mlen _ s.stream).trans (by rw [hlen])
  · exact absorb_h_of_room (by rw [hlen]; exact room)

/-- Settles O18: the two rows of the layout table are the two branches of `finalize()`. -/
theorem finalizationPadsAsTheLayoutTable : Obligations.FinalizationPadsAsTheLayoutTable := by
  refine fun st => ⟨fun room last hlast => ?_, fun full first last hfirst hlast => ?_⟩
  · rw [← bitLength_eq_ofNat] at hlast
    rw [finalState_oneBlock room]
    exact congrArg _ (padTo_eq_of_toList_eq hlast)
  · rw [← bitLength_eq_ofNat] at hlast
    rw [finalState_twoBlocks full]
    exact congrArg₂ _ (congrArg _ (padTo_eq_of_toList_eq hfirst)) (padTo_eq_of_toList_eq hlast)

/-- Settles O19, by the command's one test; DIG is the serialized H that the closed stream keeps. -/
theorem shaFinalPublishesTheDigest : Obligations.ShaFinalPublishesTheDigest :=
  fun _ => ⟨exec_shaFinal_seq, fun plain => ⟨_, exec_shaFinal_ok plain, rfl, hostRead_digest_eq_h rfl⟩⟩

/-- Settles O20: SHA_INIT opens a plain stream, the chunks are absorbed into it whole, and SHA_FINAL finds MODE = HASH. -/
theorem streamedDigestDoesNotDependOnTheSplit : Obligations.StreamedDigestDoesNotDependOnTheSplit := by
  intro s chunks legal
  obtain ⟨data, err, busy, done, hfeed⟩ := feedChunks_absorbs legal
    (s := finish .ok { s with stream := HashStream.start, kpad := zeroBytes 64, mode := .hash }) nofun
  rw [exec_shaInit, andThen_next, hfeed, andThen_next, exec_shaFinal_ok rfl]
  exact ⟨_, rfl, rfl, rfl, rfl, rfl, rfl, rfl, rfl, rfl, rfl, rfl⟩

/-- Settles O21: both sides absorb the padded message from the start. -/
theorem streamingSha1IsOneShotSha1 : Obligations.StreamingSha1IsOneShotSha1 := by
  intro M
  calc sha1 M
    _ = serialize (absorb (absorb M HashStream.start).padding (absorb M HashStream.start)).h := by
      rw [sha1, finalDigest, finalState_eq_absorb_padding]
    _ = serialize (absorb (Reference.paddedMessage M) HashStream.start).h := by
      rw [paddedMessage_eq_append_padding, absorb_append]
    _ = Reference.sha1 M := by rw [absorb_start_h, Reference.sha1]

/-- The digest of the empty message, by evaluation (R96). -/
theorem finalDigest_start :
    (finalDigest HashStream.start).toList =
      [0xda, 0x39, 0xa3, 0xee, 0x5e, 0x6b, 0x4b, 0x0d, 0x32, 0x55, 0xbf, 0xef, 0x95, 0x60, 0x18, 0x90, 0xaf, 0xd8, 0x07, 0x09] := by
  decide +kernel

/-- Settles O22: the one padding block of FILL = 0, and SHA_FINAL right after SHA_INIT. -/
theorem emptyMessageDigest : Obligations.EmptyMessageDigest := by
  constructor
  · intro block hblock
    have hpadding : HashStream.start.partialBlock ++ [0x80] ++ zeros (55 - HashStream.start.fill.val) ++
        bytesOfDWord HashStream.start.bitLength = [0x80] ++ List.replicate 63 0 := by decide
    rw [finalState_oneBlock (Nat.zero_le 55), hpadding, padTo_eq_of_toList_eq hblock, start_h]
  · intro s
    rw [exec_shaInit, andThen_next, exec_shaFinal_ok rfl]
    exact ⟨_, rfl, finalDigest_start⟩

end Sys2Proof.Machine
end

section
/-! SUPPORT. The secret and the HMAC engine: each outcome of the three commands as an equation, the keyed streams as
absorptions from the start, and HMAC over them. -/

namespace Sys2Proof.Machine

/-! ### The commands, outcome by outcome -/

theorem exec_setSecret (len : Nat) (s : State) : exec (.setSecret len) s = execSetSecret len s := rfl

theorem exec_hmacInit (s : State) : exec .hmacInit s = execHmacInit s := rfl

theorem exec_hmacFinal (s : State) : exec .hmacFinal s = execHmacFinal s := rfl

theorem exec_setSecret_badlen {len : Nat} (s : State) (illegal : len = 0 ∨ 32 < len) :
    exec (.setSecret len) s = .next (finish .badlen s) := by
  rw [exec_setSecret, execSetSecret, dif_pos illegal, complete_error]

theorem exec_setSecret_ok {len : Nat} (s : State) (nonempty : 1 ≤ len) (fits : len ≤ 32) :
    exec (.setSecret len) s =
      .next (finish .ok
        { s with key := padTo 32 (dataBytes len s), keyLen := ⟨len, Nat.lt_succ_of_le fits⟩, data := zeroBytes 64 }) := by
  rw [exec_setSecret, execSetSecret, dif_neg (by omega), complete_ok]

theorem exec_hmacInit_nokey {s : State} (unset : s.keyLen = 0) : exec .hmacInit s = .next (finish .nokey s) := by
  rw [exec_hmacInit, execHmacInit, if_pos unset, complete_error]

theorem exec_hmacInit_ok {s : State} (keyed : s.keyLen ≠ 0) : exec .hmacInit s = .next (finish .ok (hmacOpen s)) := by
  rw [exec_hmacInit, execHmacInit, if_neg keyed, complete_ok]

theorem exec_hmacFinal_seq {s : State} (hmode : s.mode ≠ .hmac) : exec .hmacFinal s = .next (finish .seq s) := by
  rw [exec_hmacFinal, execHmacFinal, if_pos hmode, complete_error]

theorem exec_hmacFinal_ok {s : State} (keyedStream : s.mode = .hmac) :
    exec .hmacFinal s = .next (finish .ok (hmacClose s)) := by
  rw [exec_hmacFinal, execHmacFinal, if_neg (not_not.mpr keyedStream), complete_ok]

/-! ### The key -/

/-- KEY after SET_SECRET: the secret, then zeros over all of the old key (R105). -/
theorem padTo_dataBytes_toList {len : Nat} (s : State) (fits : len ≤ 32) :
    (padTo 32 (dataBytes len s)).toList = s.data.toList.take len ++ List.replicate (32 - len) 0 := by
  have hlen : (dataBytes len s).length = len := by rw [dataBytes_length, Nat.min_eq_left (by omega)]
  rw [padTo_toList_of_le (by omega), hlen]
  rfl

/-- K0, both branches, over one-shot SHA-1 (R101). -/
theorem paddedKey_toList (K : List Byte) :
    (paddedKey K).toList = if 64 < K.length then (Reference.sha1 K).toList ++ zeros 44 else K ++ zeros (64 - K.length) := by
  by_cases long : 64 < K.length
  · have hdigest : (Reference.sha1 K).toList.length = 20 := Vector.length_toList
    rw [paddedKey, if_pos long, if_pos long, streamingSha1IsOneShotSha1, padTo_toList_of_le (by omega), hdigest]
  · rw [paddedKey, if_neg long, if_neg long, padTo_toList_of_le (by omega)]

/-! ### The keyed streams -/

/-- The inner stream has absorbed the inner key block (R102, R107). -/
theorem openInner_eq_absorb (K0 : Vector Byte 64) :
    openInner K0 = absorb (K0.toList.map (· ^^^ 0x36)) HashStream.start := by
  rw [openInner, ipad, xorBytes_replicate _ _ _ (by simp)]

/-- The outer stream has absorbed the outer key block and the inner digest (R102, R108). -/
theorem openOuter_eq_absorb (K0 : Vector Byte 64) (inner : Vector Byte 20) :
    openOuter K0 inner = absorb (K0.toList.map (· ^^^ 0x5c) ++ inner.toList) HashStream.start := by
  rw [openOuter, opad, xorBytes_replicate _ _ _ (by simp), absorb_append]

theorem openInner_mlen (K0 : Vector Byte 64) : (openInner K0).mlen = 64 := by
  rw [openInner_eq_absorb, absorb_mlen, List.length_map, Vector.length_toList]
  rfl

theorem openInner_fill (K0 : Vector Byte 64) : (openInner K0).fill = 0 := by
  apply Fin.ext
  rw [openInner_eq_absorb, absorb_fill, List.length_map, Vector.length_toList]
  rfl

/-- Opening a keyed stream is one compression, of the inner key block (R107). -/
theorem openInner_h {K0 innerBlock : Vector Byte 64} (hblock : innerBlock.toList = K0.toList.map (· ^^^ 0x36)) :
    (openInner K0).h = compress initialValue innerBlock := by
  rw [openInner_eq_absorb, ← hblock, absorb_start_h, blocksOf_single Vector.length_toList, padTo_toList_self]
  rfl

/-- The inner digest of a message is the SHA-1 of the inner key block and the message (R103). -/
theorem finalDigest_absorb_openInner (K0 : Vector Byte 64) (M : List Byte) :
    finalDigest (absorb M (openInner K0)) = sha1 (K0.toList.map (· ^^^ 0x36) ++ M) := by
  rw [openInner_eq_absorb, ← absorb_append, sha1]

/-- The MAC is the SHA-1 of the outer key block and the inner digest (R108). -/
theorem hmacClose_dig_eq_sha1 (s : State) :
    (hmacClose s).dig = sha1 (s.kpad.toList.map (· ^^^ 0x5c) ++ (finalDigest s.stream).toList) := by
  rw [hmacClose_dig, openOuter_eq_absorb, sha1]

/-- DIG is the serialized H that the closed outer stream keeps (R93, R108). -/
theorem hmacClose_dig_eq_serialize_h (s : State) : (hmacClose s).dig = serialize (hmacClose s).stream.h := by
  rw [hmacClose_dig, hmacClose_stream, closed_h, finalDigest]

/-- A message absorbed into the inner stream of a latched key K0(K) is closed with HMAC(K, M) (R103, R104). -/
theorem hmacClose_dig_eq_hmac {s : State} {K M : List Byte} (hkpad : s.kpad = paddedKey K)
    (hstream : s.stream = absorb M (openInner (paddedKey K))) : (hmacClose s).dig = Reference.hmac K M := by
  rw [hmacClose_dig_eq_sha1, hkpad, hstream, finalDigest_absorb_openInner, paddedKey_toList, streamingSha1IsOneShotSha1,
    streamingSha1IsOneShotSha1, Reference.hmac]

end Sys2Proof.Machine
end

section
/-! The statements about the secret and HMAC. -/

namespace Sys2Proof.Machine

/-- Settles O23, by the command's one test of LEN. -/
theorem setSecretOverwritesTheKeyAndClearsData : Obligations.SetSecretOverwritesTheKeyAndClearsData := by
  refine fun len s => ⟨exec_setSecret_badlen s, fun nonempty fits => ?_⟩
  refine ⟨_, exec_setSecret_ok s nonempty fits, rfl, padTo_dataBytes_toList s fits, rfl, ?_⟩
  rw [keySet_eq]
  exact decide_eq_true nonempty

/-- Settles O24: the padded key is one block, so opening the stream compresses once and leaves PBUF empty. -/
theorem hmacInitLatchesTheKeyAndAbsorbsTheInnerPad : Obligations.HmacInitLatchesTheKeyAndAbsorbsTheInnerPad :=
  fun s => ⟨exec_hmacInit_nokey, fun keyed => ⟨_, exec_hmacInit_ok keyed, rfl, paddedKey_secret s, openInner_mlen _,
    openInner_fill _, fun _ => openInner_h⟩⟩

/-- Settles O25, by the command's one test; the closed stream keeps the H that DIG serializes. -/
theorem hmacFinalPublishesTheOuterHash : Obligations.HmacFinalPublishesTheOuterHash := by
  refine fun s => ⟨exec_hmacFinal_seq, fun keyedStream => ?_⟩
  refine ⟨_, exec_hmacFinal_ok keyedStream, ?_, hostRead_digest_eq_h (hmacClose_dig_eq_serialize_h s)⟩
  rw [← hmacClose_dig_eq_sha1]
  rfl

/-- Settles O26: HMAC_INIT latches K0 and opens the inner stream, the chunks are absorbed into it whole with KPAD kept, and
HMAC_FINAL finds MODE = HMAC. -/
theorem streamedMacIsTheHmacOfTheSecret : Obligations.StreamedMacIsTheHmacOfTheSecret := by
  intro s chunks keyed legal
  obtain ⟨data, err, busy, done, hfeed⟩ := feedChunks_absorbs legal (s := finish .ok (hmacOpen s)) nofun
  rw [exec_hmacInit_ok keyed, andThen_next, hfeed, andThen_next, exec_hmacFinal_ok rfl]
  exact ⟨_, rfl, hmacClose_dig_eq_hmac (K := secret s) rfl rfl, rfl, rfl, rfl, rfl, rfl, rfl, rfl, rfl, rfl⟩

end Sys2Proof.Machine
end

section
/-! SUPPORT. The truncation unit as numbers and characters: the four bytes it reads, the code they spell mod 10^6, and the six
digits HOST reads back (R109, R110). -/

namespace Sys2Proof.Machine

/-! ### Dynamic truncation -/

/-- The offset is the low nibble of the last byte (R109). -/
theorem truncationOffset_eq (mac : Vector Byte 20) : truncationOffset mac = mac[19].toNat % 16 := by
  have hlast : byteAt mac.toList 19 = mac[19] := by simp [byteAt]
  rw [truncationOffset, hlast, BitVec.toNat_and]
  exact Nat.and_two_pow_sub_one_eq_mod _ 4

/-- The four bytes, put together without the top bit, are the number they spell (R109). -/
theorem truncationValue_toNat (mac : Vector Byte 20) : (truncationValue mac).toNat = Reference.truncationValue mac := by
  have hmask (x : Byte) : (x &&& 0x7F).toNat = x.toNat % 128 :=
    (BitVec.toNat_and x 0x7F).trans (Nat.and_two_pow_sub_one_eq_mod _ 7)
  rw [truncationValue, word_of_bytes, word_toNat, hmask, truncationOffset_eq, Reference.truncationValue]

/-- Without its top bit the value is below 2^31 (R109). -/
theorem truncationValue_toNat_lt (mac : Vector Byte 20) : (truncationValue mac).toNat < 2 ^ 31 := by
  rw [truncationValue, word_of_bytes, word_toNat]
  generalize byteAt mac.toList = byte
  have htop : (byte (truncationOffset mac) &&& 0x7F).toNat < 128 :=
    (BitVec.toNat_and _ _).trans_lt (Nat.lt_of_le_of_lt Nat.and_le_right (by decide))
  have h1 := (byte (truncationOffset mac + 1)).isLt
  have h2 := (byte (truncationOffset mac + 2)).isLt
  have h3 := (byte (truncationOffset mac + 3)).isLt
  omega

theorem truncateMac_eq (mac : Vector Byte 20) : truncateMac mac = Reference.truncationValue mac % 1000000 := by
  rw [truncateMac, truncationValue_toNat]

/-! ### The digits -/

/-- The low word is the last two digits and two zero bytes (R29). -/
theorem asciiLow_eq (c : Nat) : asciiLow c = asciiDigit c 5 ++ asciiDigit c 6 ++ (0 : Byte) ++ (0 : Byte) := by
  apply BitVec.eq_of_toNat_eq
  rw [word_toNat, asciiLow, toNat_append_eq_add, toNat_append_eq_add]
  simp only [BitVec.ofNat_eq_ofNat, BitVec.toNat_ofNat]
  omega

theorem asciiLow_reserved (c : Nat) : (asciiLow c).toNat % 2 ^ 16 = 0 := by
  rw [asciiLow, toNat_append_eq_add, Nat.mul_add_mod_self_right]
  rfl

/-- The character of a digit byte is the digit's (R29, R110). -/
theorem char_asciiDigit (c i : Nat) : Char.ofNat (asciiDigit c i).toNat = Nat.digitChar (c / 10 ^ (6 - i) % 10) := by
  have hdigit : ∀ d < 10, Char.ofNat (BitVec.ofNat 8 (0x30 + d)).toNat = Nat.digitChar d := by decide
  exact hdigit _ (Nat.mod_lt _ (by decide))

/-- HOST reads the six zero-padded digits wherever CODE_ASCII0 and CODE_ASCII1 hold those of `c` (R29, R120). -/
theorem codeDigits_eq_sixDigits {t : State} {c : Nat} (hhigh : t.codeAscii0 = asciiHigh c)
    (hlow : t.codeAscii1 = asciiLow c) : codeDigits t = Reference.sixDigits c := by
  rw [codeDigits, hostRead, hostRead, hhigh, hlow, asciiHigh, asciiLow_eq, bytesOfWord_append, bytesOfWord_append]
  simp [char_asciiDigit, Reference.sixDigits]

/-- Read as a decimal number, the six digits of a code are the code. -/
theorem sixDigits_foldl {c : Nat} (hc : c < 1000000) :
    (Reference.sixDigits c).foldl (fun n d => 10 * n + (d.toNat - 48)) 0 = c := by
  have hdigit : ∀ d < 10, (Nat.digitChar d).toNat - 48 = d := by decide
  have hvalue (n : Nat) : (Nat.digitChar (n % 10)).toNat - 48 = n % 10 := hdigit _ (Nat.mod_lt _ (by decide))
  simp only [Reference.sixDigits, List.map_cons, List.map_nil, List.foldl_cons, List.foldl_nil, hvalue]
  omega

/-! ### setcode -/

theorem setCode_code_toNat {c : Nat} (hc : c < 1000000) (s : State) : (setCode c s).code.toNat = c :=
  Nat.mod_eq_of_lt (by omega)

theorem codeDigits_setCode (c : Nat) (s : State) : codeDigits (setCode c s) = Reference.sixDigits c :=
  codeDigits_eq_sixDigits rfl rfl

end Sys2Proof.Machine
end

section
/-! SUPPORT. The TOTP commands: each outcome as an equation, the two operands they hash, and everything the hashing path
leaves (R111..R117). -/

namespace Sys2Proof.Machine

/-! ### The commands, outcome by outcome -/

theorem exec_setTimestep (s : State) : exec .setTimestep s = execSetTimestep s := rfl

theorem exec_setTimestep_badstep {s : State} (zero : s.argLo = 0) : exec .setTimestep s = .next (finish .badstep s) := by
  rw [exec_setTimestep, execSetTimestep, if_pos zero, complete_error]

theorem exec_setTimestep_ok {s : State} (nonzero : s.argLo ≠ 0) :
    exec .setTimestep s = .next (finish .ok { s with timestep := s.argLo }) := by
  rw [exec_setTimestep, execSetTimestep, if_neg nonzero, complete_ok]

theorem exec_truncate (s : State) : exec .truncate s = .next (finish .ok (setCode (truncateMac s.dig) s)) := rfl

/-- What both TOTP commands do once the step count is known and the timestamp, if any, is not 0: the sentinel without a secret,
else `totp_hash` (R115, R116). -/
def totpResult (steps : Word) (s : State) : State := if s.keyLen = 0 then setSentinel s else totpHash steps s

theorem totpResult_unkeyed {s : State} (steps : Word) (unkeyed : s.keyLen = 0) : totpResult steps s = setSentinel s :=
  if_pos unkeyed

theorem totpResult_keyed {s : State} (steps : Word) (keyed : s.keyLen ≠ 0) : totpResult steps s = totpHash steps s :=
  if_neg keyed

theorem exec_totpSteps (s : State) : exec .totpSteps s = .next (finish .ok (totpResult s.argLo s)) := rfl

theorem exec_totpTime (s : State) : exec .totpTime s = execTotpTime s := rfl

theorem exec_totpTime_sentinel {s : State} (noCode : s.keyLen = 0 ∨ timestamp s = 0) :
    exec .totpTime s = .next (finish .ok (setSentinel s)) := by
  rw [exec_totpTime, execTotpTime, if_pos noCode, complete_ok]

theorem exec_totpTime_nonzero {s : State} (nonzero : timestamp s ≠ 0) :
    exec .totpTime s = .next (finish .ok (totpResult (stepsOf (timestamp s) s.timestep) s)) := by
  rw [exec_totpTime, execTotpTime, complete_ok, totpResult]
  simp only [nonzero, or_false]

/-! ### The operands -/

theorem timestamp_toNat (s : State) : (timestamp s).toNat = s.argHi.toNat * 2 ^ 32 + s.argLo.toNat :=
  toNat_append_eq_add _ _

theorem timestamp_eq_zero_iff (s : State) : timestamp s = 0 ↔ s.argHi = 0 ∧ s.argLo = 0 := by
  simp only [← BitVec.toNat_inj, timestamp_toNat, BitVec.ofNat_eq_ofNat, BitVec.toNat_ofNat]
  omega

theorem timestamp_ne_zero {s : State} (h : s.argHi ≠ 0 ∨ s.argLo ≠ 0) : timestamp s ≠ 0 := by
  rw [ne_eq, timestamp_eq_zero_iff, not_and_or]
  exact h

theorem stepsOf_eq {timestep : Word} (t : DWord) (h : timestep ≠ 0) :
    stepsOf t timestep = BitVec.ofNat 32 (t.toNat / timestep.toNat) := if_neg h

/-- A step is a whole quotient: it stays the same up to the next multiple of TIMESTEP (R119). -/
theorem stepsOf_eq_within_step {timestep : Word} {first last : DWord} (hstep : timestep ≠ 0)
    (haligned : first.toNat % timestep.toNat = 0) (hle : first.toNat ≤ last.toNat)
    (hlt : last.toNat < first.toNat + timestep.toNat) : stepsOf last timestep = stepsOf first timestep := by
  obtain ⟨q, hq⟩ := Nat.dvd_of_mod_eq_zero haligned
  have hpos : 0 < timestep.toNat := Nat.pos_of_ne_zero fun h => hstep (BitVec.eq_of_toNat_eq h)
  have hquot : last.toNat / timestep.toNat = q :=
    Nat.div_eq_of_lt_le (by rw [Nat.mul_comm]; omega) (by rw [Nat.succ_mul, Nat.mul_comm]; omega)
  rw [stepsOf_eq _ hstep, stepsOf_eq _ hstep, hquot, hq, Nat.mul_div_cancel_left _ hpos]

theorem stepsOf_next_step {timestep : Word} {first next : DWord} (hstep : timestep ≠ 0)
    (hnext : next.toNat = first.toNat + timestep.toNat) : stepsOf next timestep = stepsOf first timestep + 1 := by
  have hpos : 0 < timestep.toNat := Nat.pos_of_ne_zero fun h => hstep (BitVec.eq_of_toNat_eq h)
  rw [stepsOf_eq _ hstep, stepsOf_eq _ hstep, hnext, Nat.add_div_right _ hpos, BitVec.ofNat_add]
  rfl

/-! ### The hashing path -/

@[simp] theorem totpHash_steps (c : Word) (s : State) : (totpHash c s).steps = c := by simp [totpHash]

/-- `totp_hash` publishes the MAC of the counter under the secret (R112). -/
theorem totpHash_dig (c : Word) (s : State) :
    (totpHash c s).dig = Reference.hmac (secret s) ([0, 0, 0, 0] ++ bytesOfWord c) :=
  hmacClose_dig_eq_hmac (hmacOpen_kpad s) (absorbCounter_stream c (hmacOpen s))

/-- CODE is the code of the MAC `totp_hash` publishes (R112). -/
theorem totpHash_eq_setCode (c : Word) (s : State) :
    totpHash c s =
      setCode (Reference.totpCode (secret s) c) { hmacClose (absorbCounter c (hmacOpen s)) with steps := c } := by
  have hcode : truncateMac (hmacClose (absorbCounter c (hmacOpen s))).dig = Reference.totpCode (secret s) c := by
    rw [truncateMac_eq]
    exact congrArg (Reference.truncationValue · % 1000000) (totpHash_dig c s)
  rw [← hcode, totpHash]

theorem totpHash_code_toNat (c : Word) (s : State) : (totpHash c s).code.toNat = Reference.totpCode (secret s) c := by
  rw [totpHash_eq_setCode]
  exact setCode_code_toNat (Nat.mod_lt _ (by decide)) _

theorem codeDigits_totpHash (c : Word) (s : State) :
    codeDigits (totpHash c s) = Reference.sixDigits (Reference.totpCode (secret s) c) := by
  rw [totpHash_eq_setCode]
  exact codeDigits_setCode _ _

theorem totpHash_codeAscii1_reserved (c : Word) (s : State) : (totpHash c s).codeAscii1.toNat % 2 ^ 16 = 0 :=
  asciiLow_reserved _

theorem totpHash_dig_eq_serialize_h (c : Word) (s : State) : (totpHash c s).dig = serialize (totpHash c s).stream.h :=
  hmacClose_dig_eq_serialize_h (absorbCounter c (hmacOpen s))

/-- `t` is what a TOTP command leaves of `s` when it hashes the counter `steps`: the end state of R112 in every register. -/
def TotpHashed (steps : Word) (s t : State) : Prop :=
  t = { s with
    dig := Reference.hmac (secret s) ([0, 0, 0, 0] ++ bytesOfWord steps)
    stream := { h := t.stream.h, mlen := 0, fill := 0, pbuf := Vector.replicate 64 0 }
    kpad := Vector.replicate 64 0
    mode := .idle
    steps := steps
    code := t.code
    codeAscii0 := t.codeAscii0
    codeAscii1 := t.codeAscii1
    valid := true
    err := .ok
    busy := false
    done := true } ∧
  t.code.toNat = Reference.totpCode (secret s) steps ∧
  codeDigits t = Reference.sixDigits t.code.toNat ∧ t.codeAscii1.toNat % 2 ^ 16 = 0 ∧
  ∀ k : Fin 5, hostRead (.digest k) t = hostRead (.h k) t

theorem totpHashed_totpResult {s : State} (keyed : s.keyLen ≠ 0) (steps : Word) :
    TotpHashed steps s (finish .ok (totpResult steps s)) := by
  rw [totpResult_keyed steps keyed]
  have hcode := totpHash_code_toNat steps s
  refine ⟨?_, hcode, ?_, totpHash_codeAscii1_reserved steps s, hostRead_digest_eq_h (totpHash_dig_eq_serialize_h steps s)⟩
  · rw [← totpHash_dig]
    simp [totpHash, setCode, finish, HashStream.closed]
  · exact (codeDigits_totpHash steps s).trans (congrArg Reference.sixDigits hcode.symm)

/-- R112's equivalence: the stream commands hash DATA where `totp_hash` hashes the counter, and leave STEPS (R104, R112). -/
theorem keyedStream_eq_totpHash {s : State} {steps : Word} {counter : Vector Byte 64} (keyed : s.keyLen ≠ 0)
    (hcounter : counter.toList.take 8 = counterBytes steps) :
    andThen (andThen (andThen (exec .hmacInit s)
      (fun a => exec (.shaUpdate 8) { a with data := counter })) (exec .hmacFinal)) (exec .truncate) =
      .next { finish .ok (totpHash steps s) with data := counter, steps := s.steps } := by
  have hupdate := exec_shaUpdate_ok (s := { finish .ok (hmacOpen s) with data := counter }) (len := 8) nofun (by decide)
  rw [exec_hmacInit_ok keyed, andThen_next, hupdate, andThen_next, exec_hmacFinal_ok rfl, andThen_next, exec_truncate]
  simp [dataBytes, hcounter, totpHash, setCode, finish, hmacClose, hmacOpen, absorbCounter]

end Sys2Proof.Machine
end

section
/-! The statements about the TOTP unit. -/

namespace Sys2Proof.Machine

/-- Settles O27, by the command's one test. -/
theorem setTimestepRejectsZero : Obligations.SetTimestepRejectsZero :=
  fun _ => ⟨exec_setTimestep_badstep, exec_setTimestep_ok⟩

/-- Settles O28: the bytes are put together as the number they spell, and the digits of `setcode` are those of the code. -/
theorem truncationSpellsItsBytesAndDigits : Obligations.TruncationSpellsItsBytesAndDigits := by
  refine ⟨fun mac => ⟨truncationOffset_eq mac, truncationValue_toNat mac, truncationValue_toNat_lt mac, truncateMac_eq mac⟩,
    fun c s hc => ⟨rfl, setCode_code_toNat hc s, asciiLow_reserved c, codeDigits_setCode c s, ?_⟩, fun _ => rfl⟩
  rw [codeDigits_setCode, sixDigits_foldl hc]

/-- Settles O29: the command tests nothing, and `setcode` publishes the code of DIG. -/
theorem truncateWritesTheCodeOfTheDigest : Obligations.TruncateWritesTheCodeOfTheDigest := by
  intro s
  have hcode := setCode_code_toNat (truncateMac_lt s.dig) s
  refine ⟨_, exec_truncate s, rfl, hcode.trans (truncateMac_eq s.dig), ?_, asciiLow_reserved _⟩
  exact (codeDigits_setCode _ s).trans (congrArg Reference.sixDigits hcode.symm)

/-- Settles O30: both commands reach the sentinel before anything is hashed. -/
theorem sentinelPathWritesNothingElse : Obligations.SentinelPathWritesNothingElse := by
  refine fun s => ⟨fun unkeyed => ?_, fun noCode => ?_⟩
  · rw [exec_totpSteps, totpResult_unkeyed _ unkeyed]
    rfl
  · exact exec_totpTime_sentinel (noCode.imp_right (timestamp_eq_zero_iff s).mpr)

/-- Settles O31: a step count of 0 is hashed like any other. -/
theorem totpStepsHashesTheCounter : Obligations.TotpStepsHashesTheCounter := by
  refine ⟨fun s unkeyed => ?_, fun s keyed => ⟨_, exec_totpSteps s, totpHashed_totpResult keyed s.argLo⟩⟩
  rw [exec_totpSteps, totpResult_unkeyed _ unkeyed]

/-- Settles O32: the steps are the quotient of the timestamp, and the rest is as for TOTP_STEPS. -/
theorem totpTimeHashesTheStepOfTheTimestamp : Obligations.TotpTimeHashesTheStepOfTheTimestamp := by
  refine ⟨fun s noCode => exec_totpTime_sentinel (noCode.imp_right (timestamp_eq_zero_iff s).mpr),
    fun s => ⟨_, rfl, rfl⟩, fun s keyed hstep harg => ?_⟩
  have hexec := exec_totpTime_nonzero (timestamp_ne_zero harg)
  rw [stepsOf_eq _ hstep, timestamp_toNat] at hexec
  exact ⟨_, hexec, totpHashed_totpResult keyed _⟩

/-- Settles O33: both commands are `totp_hash` of their counter, which is the keyed stream of the counter block. -/
theorem totpStepsEqualsTheKeyedStream : Obligations.TotpStepsEqualsTheKeyedStream := by
  intro s i steps counter keyed hcommand hcounter
  have hexec : exec i s = .next (finish .ok (totpHash steps s)) := by
    obtain ⟨rfl, rfl⟩ | ⟨rfl, harg, hstep, rfl⟩ := hcommand
    · rw [exec_totpSteps, totpResult_keyed _ keyed]
    · rw [exec_totpTime_nonzero (timestamp_ne_zero harg), stepsOf_eq _ hstep, timestamp_toNat, totpResult_keyed _ keyed]
  exact ⟨_, _, hexec, totpHash_steps steps s, keyedStream_eq_totpHash keyed hcounter, rfl⟩

end Sys2Proof.Machine
end

section
/-! SUPPORT. TOTP_TIME at a timestamp HOST loads, and the verifier's loop over such timestamps (R119, R120). -/

namespace Sys2Proof.Machine

/-! ### TOTP_TIME at a loaded timestamp -/

/-- `ld64 ARG_HI:ARG_LO, t` (R65): the operand of TOTP_TIME is `t`. -/
def loadTimestamp (t : DWord) (s : State) : State :=
  { s with argHi := t.extractLsb' 32 32, argLo := t.extractLsb' 0 32 }

@[simp] theorem timestamp_loadTimestamp (t : DWord) (s : State) : timestamp (loadTimestamp t s) = t := by
  apply BitVec.eq_of_toNat_eq
  rw [timestamp_toNat, loadTimestamp, BitVec.extractLsb'_toNat, BitVec.extractLsb'_toNat, Nat.shiftRight_eq_div_pow]
  omega

/-- The commands read ARG only for the step count, so the loaded operand passes through them. -/
theorem totpResult_loadTimestamp (steps : Word) (t : DWord) (s : State) :
    totpResult steps (loadTimestamp t s) = loadTimestamp t (totpResult steps s) := by
  by_cases unkeyed : s.keyLen = 0
  · rw [totpResult_unkeyed steps unkeyed, totpResult_unkeyed (s := loadTimestamp t s) steps unkeyed]
    rfl
  · rw [totpResult_keyed steps unkeyed, totpResult_keyed (s := loadTimestamp t s) steps unkeyed]
    rfl

/-- TOTP_TIME at a nonzero timestamp depends on it only through its step, ARG aside (R111, R116). -/
theorem exec_totpTime_loadTimestamp {t : DWord} (s : State) (nonzero : t ≠ 0) :
    exec .totpTime (loadTimestamp t s) =
      .next (loadTimestamp t (finish .ok (totpResult (stepsOf t s.timestep) s))) := by
  rw [exec_totpTime_nonzero (by rwa [timestamp_loadTimestamp]), timestamp_loadTimestamp, totpResult_loadTimestamp]
  rfl

/-! ### One turn of the verifier's loop -/

/-- What the verifier's use of TOTP_TIME keeps of the block between two test timestamps: the configuration, and no command in
flight (R120). -/
structure VerifierKeeps (s t : State) : Prop where
  key_eq : t.key = s.key
  keyLen_eq : t.keyLen = s.keyLen
  timestep_eq : t.timestep = s.timestep
  not_busy : t.busy = false
  released : t.rst = false

/-- The digits the code of timestamp `tt` has under the configuration of `s` (R109, R111, R112). -/
def timestampDigits (s : State) (tt : Int) : List Char :=
  Reference.sixDigits (Reference.totpCode (secret s) (BitVec.ofNat 32 (tt.toNat / s.timestep.toNat)))

theorem VerifierKeeps.trans {s t u : State} (hst : VerifierKeeps s t) (htu : VerifierKeeps t u) : VerifierKeeps s u where
  key_eq := htu.key_eq.trans hst.key_eq
  keyLen_eq := htu.keyLen_eq.trans hst.keyLen_eq
  timestep_eq := htu.timestep_eq.trans hst.timestep_eq
  not_busy := htu.not_busy
  released := htu.released

/-- The digits depend on the configuration only. -/
theorem VerifierKeeps.timestampDigits_eq {s t : State} (h : VerifierKeeps s t) (tt : Int) :
    timestampDigits t tt = timestampDigits s tt := by
  simp only [timestampDigits, secret, h.key_eq, h.keyLen_eq, h.timestep_eq]

/-- With the block idle, HOST's writes are taken and the completion is TOTP_TIME at the loaded timestamp (R68, R69, R120). -/
theorem runTotpTime_eq_exec {s : State} (tt : DWord) (idle : s.busy = false) (released : s.rst = false) :
    runTotpTime tt s = exec .totpTime (loadTimestamp tt (accept (encode .totpTime) s)) := by
  have hwrites : hostWrite .cmd (encode .totpTime)
      (hostWrite .argHi (tt.extractLsb' 32 32) (hostWrite .argLo (tt.extractLsb' 0 32) s)) =
      loadTimestamp tt (accept (encode .totpTime) s) := by
    simp [hostWrite, Reg.guarded, guardedWrite, idle, loadTimestamp, accept]
  rw [runTotpTime, hwrites, engineTurn_busy (s := loadTimestamp tt (accept (encode .totpTime) s)) rfl released]
  exact completeCommand_of_decode (decode_encode (i := .totpTime) rfl)

/-- A positive test timestamp gives the digits of its code, and the block is ready for the next (R120). -/
theorem runTotpTime_next {s : State} {tt : Int} (keyed : s.keyLen ≠ 0) (hstep : s.timestep ≠ 0) (idle : s.busy = false)
    (released : s.rst = false) (pos : 0 < tt) (fits : tt < 2 ^ 64) :
    ∃ t, runTotpTime (BitVec.ofInt 64 tt) s = .next t ∧ codeDigits t = timestampDigits s tt ∧ VerifierKeeps s t := by
  have hnat : (BitVec.ofInt 64 tt).toNat = tt.toNat := by
    rw [BitVec.toNat_ofInt, Int.emod_eq_of_lt pos.le (mod_cast fits)]
  have nonzero : BitVec.ofInt 64 tt ≠ 0 := by
    intro h0
    have hzero : tt.toNat = 0 := by rw [← hnat, h0]; rfl
    omega
  have hdigits := codeDigits_totpHash (stepsOf (BitVec.ofInt 64 tt) s.timestep) (accept (encode .totpTime) s)
  rw [runTotpTime_eq_exec _ idle released, exec_totpTime_loadTimestamp _ nonzero,
    totpResult_keyed (s := accept (encode .totpTime) s) _ keyed]
  refine ⟨_, rfl, hdigits.trans ?_, by simp [loadTimestamp], by simp [loadTimestamp], by simp [loadTimestamp],
    rfl, by simpa [loadTimestamp]⟩
  rw [stepsOf_eq _ hstep, hnat]
  rfl

/-! ### The verifier -/

theorem keySet_eq_false_iff (s : State) : keySet s = false ↔ s.keyLen = 0 := by simp [keySet]

/-- The test timestamps are those at the offsets of the window (R120). -/
theorem mem_testTimestamps {T w tt : Int} {timestep : Nat} :
    tt ∈ testTimestamps T w timestep ↔ ∃ off : Int, -w ≤ off ∧ off ≤ w ∧ tt = T + off * (timestep : Int) := by
  simp only [testTimestamps, List.mem_map, List.bind_eq_flatMap, List.mem_flatMap, List.pure_def, List.mem_singleton,
    List.mem_range]
  constructor
  · rintro ⟨-, ⟨n, hn, rfl⟩, rfl⟩
    exact ⟨n - w, by omega, by omega, rfl⟩
  · rintro ⟨off, hlo, hhi, rfl⟩
    have hn : (((off + w).toNat : Nat) : Int) - w = off := by omega
    exact ⟨_, ⟨(off + w).toNat, by omega, rfl⟩, by rw [hn]⟩

/-- The loop answers true exactly when the candidate is the code of a positive test timestamp (R120). -/
theorem tryTimestamps_spec {cand : List Char} {tts : List Int} {s : State} (keyed : s.keyLen ≠ 0) (hstep : s.timestep ≠ 0)
    (idle : s.busy = false) (released : s.rst = false) (fits : ∀ tt ∈ tts, tt < 2 ^ 64) :
    ∃ answer t, tryTimestamps cand tts s = .next (answer, t) ∧
      (answer = true ↔ ∃ tt ∈ tts, 0 < tt ∧ cand = timestampDigits s tt) ∧ VerifierKeeps s t := by
  induction tts generalizing s with
  | nil => exact ⟨false, s, rfl, by simp, rfl, rfl, rfl, idle, released⟩
  | cons tt rest ih =>
    obtain ⟨httFits, hrestFits⟩ := List.forall_mem_cons.mp fits
    simp only [tryTimestamps, List.exists_mem_cons_iff]
    by_cases pos : 0 < tt
    · obtain ⟨t, hrun, hdigits, hkeeps⟩ := runTotpTime_next keyed hstep idle released pos httFits
      rw [if_neg (not_le.mpr pos), if_neg (not_le.mpr httFits), hrun]
      by_cases hit : codeDigits t = cand
      · simp only [if_pos hit]
        exact ⟨true, t, rfl, iff_of_true rfl (.inl ⟨pos, hit.symm.trans hdigits⟩), hkeeps⟩
      · have hmiss : ¬(0 < tt ∧ cand = timestampDigits s tt) := fun h => hit (hdigits.trans h.2.symm)
        obtain ⟨answer, u, htry, hanswer, hrest⟩ := ih (s := t) (hkeeps.keyLen_eq ▸ keyed) (hkeeps.timestep_eq ▸ hstep)
          hkeeps.not_busy hkeeps.released hrestFits
        simp only [hkeeps.timestampDigits_eq] at hanswer
        simp only [if_neg hit, hmiss, false_or]
        exact ⟨answer, u, htry, hanswer, hkeeps.trans hrest⟩
    · have hskip : ¬(0 < tt ∧ cand = timestampDigits s tt) := fun h => pos h.1
      simp only [if_pos (not_lt.mp pos), hskip, false_or]
      exact ih keyed hstep idle released hrestFits

end Sys2Proof.Machine
end

section
/-! The statements about time steps and the verifier. -/

namespace Sys2Proof.Machine

/-- Settles O34: the step count is constant up to the next multiple of TIMESTEP, and nothing else reads the timestamp. -/
theorem totpTimeIsConstantWithinAStep : Obligations.TotpTimeIsConstantWithinAStep := by
  intro s first last hstep hfirst haligned hle hlt
  have nonzero {t : DWord} (ht : first.toNat ≤ t.toNat) : t ≠ 0 := by
    rintro rfl
    exact hfirst (BitVec.eq_of_toNat_eq (Nat.eq_zero_of_le_zero ht))
  have hlast := exec_totpTime_loadTimestamp s (nonzero hle)
  rw [stepsOf_eq_within_step hstep haligned hle hlt] at hlast
  refine ⟨_, _, exec_totpTime_loadTimestamp s hfirst, hlast, rfl, fun next hnext keyed => ?_⟩
  refine ⟨_, exec_totpTime_loadTimestamp s (nonzero (by omega)), ?_⟩
  simp only [totpResult_keyed _ keyed, loadTimestamp, finish_steps, totpHash_steps]
  exact stepsOf_next_step hstep hnext

/-- Settles O35, by induction on the test timestamps: each TOTP_TIME keeps the configuration and leaves the block idle. -/
theorem verifierAcceptsExactlyTheWindowCodes : Obligations.VerifierAcceptsExactlyTheWindowCodes := by
  intro cand T w s idle released hstep hbound
  rw [verify, if_neg (Bool.eq_false_iff.mp released)]
  by_cases ready : s.keyLen ≠ 0 ∧ cand.length = 6
  · obtain ⟨keyed, hlength⟩ := ready
    have fits : ∀ tt ∈ testTimestamps T w s.timestep.toNat, tt < 2 ^ 64 := by
      intro tt htt
      obtain ⟨off, -, hoff, rfl⟩ := mem_testTimestamps.mp htt
      have hmul := Int.mul_le_mul_of_nonneg_right hoff (Int.natCast_nonneg s.timestep.toNat)
      omega
    obtain ⟨answer, t, htry, hanswer, hkeeps⟩ := tryTimestamps_spec (cand := cand) keyed hstep idle released fits
    rw [if_neg (by simp [keySet_eq_false_iff, keyed, hlength])]
    refine ⟨answer, t, htry, hanswer.trans ?_, hkeeps.key_eq, hkeeps.keyLen_eq, hkeeps.timestep_eq, hkeeps.not_busy⟩
    constructor
    · rintro ⟨tt, htt, pos, hcand⟩
      obtain ⟨off, hlo, hhi, rfl⟩ := mem_testTimestamps.mp htt
      exact ⟨keyed, hlength, off, hlo, hhi, pos, hcand⟩
    · rintro ⟨-, -, off, hlo, hhi, pos, hcand⟩
      exact ⟨_, mem_testTimestamps.mpr ⟨off, hlo, hhi, rfl⟩, pos, hcand⟩
  · have refused : keySet s = false ∨ cand.length ≠ 6 := by
      rwa [not_and_or, not_not, ← keySet_eq_false_iff] at ready
    rw [if_pos refused]
    exact ⟨false, s, rfl, iff_of_false nofun fun h => ready ⟨h.1, h.2.1⟩, rfl, rfl, rfl, idle⟩

end Sys2Proof.Machine
end

section
/-! SUPPORT. The ERR code of a completion as a function of the command and the state it begins in, and what a completion and a
host write leave in ERR, OVR, DONE and IE. -/

namespace Sys2Proof.Machine

/-! ### The ERR code of a command -/

/-- The ERR code that a command's rule gives, its conditions in the order of the rule (R122, R125). `exec_err` ties it to
`exec`. -/
def errOf (i : Instr) (s : State) : ErrCode :=
  match i with
  | .shaUpdate len => if s.mode = .idle then .seq else if 64 < len then .badlen else .ok
  | .shaFinal => if s.mode = .hash then .ok else .seq
  | .hmacFinal => if s.mode = .hmac then .ok else .seq
  | .setSecret len => if len = 0 ∨ 32 < len then .badlen else .ok
  | .hmacInit => if s.keyLen = 0 then .nokey else .ok
  | .setTimestep => if s.argLo = 0 then .badstep else .ok
  | _ => .ok

/-- A rule of one test completes with the code of the test, or with OK (R69, R70). -/
theorem complete_ite_err (s s' : State) (e : ErrCode) (c : Prop) [Decidable c] :
    (complete s (if c then .error e else .ok s')).err = if c then e else .ok := by
  split <;> rfl

/-- Every command completes with the code of the first test of its rule that holds, or with OK (R125). -/
theorem exec_err {i : Instr} {s t : State} (h : exec i s = .next t) : t.err = errOf i s := by
  cases i with
  | shaUpdate len =>
    by_cases idle : s.mode = .idle
    · cases (exec_shaUpdate_seq len idle).symm.trans h
      exact (if_pos idle).symm
    · cases h
      rw [if_neg idle, errOf, if_neg idle]
      exact complete_ite_err ..
  | setSecret len =>
    cases h
    rw [errOf]
    split <;> rfl
  | shaFinal | hmacFinal =>
    cases h
    rw [complete_ite_err, ite_not]
    rfl
  | hmacInit | setTimestep =>
    cases h
    exact complete_ite_err ..
  | nop | shaInit | shaCompress | totpSteps | totpTime | truncate =>
    cases h
    rfl

/-- With ERR not OK a command has written nothing but ERR, BUSY and DONE (R70). -/
theorem exec_eq_finish_of_err_ne_ok {i : Instr} {s t : State} (h : exec i s = .next t) (herr : t.err ≠ .ok) :
    t = finish t.err s := by
  obtain ⟨e, -, rfl⟩ | ⟨s', -, rfl⟩ := exec_cases h
  · rfl
  · exact absurd rfl herr

/-! ### ENGINE's turn: DONE, IE, OVR and ERR -/

theorem exec_done {i : Instr} {s t : State} (h : exec i s = .next t) : t.done = true := by
  obtain ⟨e, -, rfl⟩ | ⟨s', -, rfl⟩ := exec_cases h
  · rfl
  · rfl

theorem exec_ie {i : Instr} {s t : State} (h : exec i s = .next t) : t.ie = s.ie := by
  obtain ⟨e, -, rfl⟩ | ⟨s', hw, rfl⟩ := exec_cases h
  · rfl
  · obtain ⟨hie, -⟩ := hw.host_registers_eq
    exact hie

/-- ENGINE never writes OVR (R75). -/
theorem engineTurn_ovr {s t : State} (h : engineTurn s = .next t) : t.ovr = s.ovr := by
  obtain rfl | ⟨-, -, ⟨e, -, rfl⟩ | ⟨i, s', -, hw, rfl⟩⟩ := engineTurn_cases h
  · rfl
  · rfl
  · obtain ⟨-, hovr, -⟩ := hw.host_registers_eq
    exact hovr

/-- A turn that changes ERR completes a command in flight. -/
theorem busy_of_engineTurn_err_ne {s t : State} (h : engineTurn s = .next t) (herr : t.err ≠ s.err) : s.busy = true := by
  obtain rfl | ⟨hbusy, -⟩ := engineTurn_cases h
  · exact absurd rfl herr
  · exact hbusy

/-! ### Host writes: OVR and ERR -/

/-- No host write reaches ERR (R67). -/
theorem hostWrite_err (r : Reg) (v : Word) (s : State) : (hostWrite r v s).err = s.err := by
  obtain ⟨-, h⟩ | ⟨-, h⟩ | ⟨-, -, h⟩ | ⟨-, -, h⟩ | ⟨-, -, -, h⟩ := hostWrite_cases r v s <;> rw [h]
  · rfl
  · rfl
  · rfl
  · cases r <;> rfl

/-- The write of a register while BUSY = 0 keeps OVR (R67). -/
theorem guardedWrite_ovr (r : Reg) (v : Word) (s : State) : (guardedWrite r v s).ovr = s.ovr := by
  cases r <;> rfl

/-- The only host write that lowers OVR is that of a 1 to bit 2 of STATUS (R67, R124). -/
theorem hostWrite_clears_ovr {r : Reg} {v : Word} {s : State} (hset : s.ovr = true)
    (hclear : (hostWrite r v s).ovr = false) : r = .status ∧ v.getLsbD 2 = true := by
  obtain ⟨-, h⟩ | ⟨hr, h⟩ | ⟨-, -, h⟩ | ⟨-, -, h⟩ | ⟨-, -, -, h⟩ := hostWrite_cases r v s <;> rw [h] at hclear
  · exact absurd (hset.symm.trans hclear) nofun
  · rw [writeStatus_ovr, hset] at hclear
    exact ⟨hr, by simpa using hclear⟩
  · exact absurd hclear nofun
  · rw [guardedWrite_ovr] at hclear
    exact absurd (hset.symm.trans hclear) nofun
  · exact absurd (hset.symm.trans hclear) nofun

/-! ### The interrupt output (R127) -/

theorem irq_eq_true_iff (s : State) : irq s = true ↔ s.ie = true ∧ s.done = true := Bool.and_eq_true_iff

theorem irq_eq_false_of_not_done {s : State} (h : s.done = false) : irq s = false := by
  rw [irq, h, Bool.and_false]

theorem irq_eq_ie_of_done {s : State} (h : s.done = true) : irq s = s.ie := by
  rw [irq, h, Bool.and_true]

theorem writeStatus_clears_done {v : Word} (s : State) (h : v.getLsbD 1 = true) : (writeStatus v s).done = false := by
  rw [writeStatus_done, h, Bool.not_true, Bool.and_false]

end Sys2Proof.Machine
end

section
/-! The statements about ERR, OVR and the interrupt output. -/

namespace Sys2Proof.Machine

/-- Settles O8: each command completes, with the code its rule gives, and an error completion writes nothing else. -/
theorem errCodeOfEveryCommand : Obligations.ErrCodeOfEveryCommand := by
  refine ⟨by decide, fun i s => ?_, fun s hnone => completeCommand_of_not_decode hnone⟩
  obtain ⟨t, ht⟩ := exec_next i s
  exact ⟨t, ht, exec_eq_finish_of_err_ne_ok ht, exec_err ht⟩

/-- Settles O43, by the cases of one step: ENGINE keeps OVR, and HOST keeps ERR and lowers OVR only through STATUS. -/
theorem overrunAndErrAreSticky : Obligations.OverrunAndErrAreSticky := by
  intro s t hstep
  obtain ⟨hnext, hturn⟩ | ⟨off, rest, -, -, -, -, rfl⟩ | ⟨off, v, rest, ha, hoff, h4, -, rfl⟩ | ⟨rest, ha, -⟩ |
    ⟨rest, ha, -⟩ := step_cases hstep
  · refine ⟨fun hset hclear => ?_, fun herr => .inl ⟨hnext, busy_of_engineTurn_err_ne (s := taken s) hturn herr⟩⟩
    rw [engineTurn_ovr hturn, taken_ovr, hset] at hclear
    exact absurd hclear nofun
  · exact ⟨fun hset hclear => absurd (hset.symm.trans hclear) nofun, fun herr => absurd rfl herr⟩
  · refine ⟨fun hset hclear => .inl ?_, fun herr => absurd (hostWrite_err _ v (taken s)) herr⟩
    obtain ⟨hstatus, hbit⟩ := hostWrite_clears_ovr (s := taken s) hset hclear
    obtain rfl : off = 0x00C := offset_eq_of_regAt_eq hoff h4 hstatus nofun
    exact ⟨v, rest, hbit, ha⟩
  · exact ⟨fun _ _ => .inr ⟨rest, .inl ha⟩, fun _ => .inr ⟨rest, .inl ha⟩⟩
  · exact ⟨fun _ _ => .inr ⟨rest, .inr ha⟩, fun _ => .inr ⟨rest, .inr ha⟩⟩

/-- Settles O42: an acceptance and a 1 in bit 1 of STATUS lower DONE, a completion raises it, and CTRL keeps it. -/
theorem irqIsTheLevelOfIeAndDone : Obligations.IrqIsTheLevelOfIeAndDone := by
  refine ⟨irq_eq_true_iff, fun s => ?_, fun s v hidle => ?_, fun i s t h => ?_, fun s v hbit => ?_, fun s v => ⟨rfl, rfl⟩⟩
  · simp only [irqRequest, irq_eq_true_iff]
  · rw [hostWrite_guarded_idle (r := .cmd) v rfl hidle]
    exact irq_eq_false_of_not_done (accept_done v s)
  · rw [irq_eq_ie_of_done (exec_done h), exec_ie h]
  · exact irq_eq_false_of_not_done (writeStatus_clears_done s hbit)

end Sys2Proof.Machine
end

section
/-! SUPPORT. The reset input: ENGINE's turn while it is asserted, and its two edges as steps of the machine (R137). -/

namespace Sys2Proof.Machine

/-- While `rst` is asserted ENGINE's turn changes nothing, whatever BUSY is (R137; log 3). -/
theorem engineTurn_duringReset {s : State} (hrst : s.rst = true) : engineTurn s = .next s := by
  simp [engineTurn, hrst]

theorem releaseReset_asserted {s : State} (hrst : s.rst = true) : releaseReset s = resetBlock false s := if_pos hrst

theorem step_assertRst {s : State} {rest : List BusEvent} (h : s.agenda = .assertRst :: rest) :
    step s = .next (resetBlock true { s with agenda := rest }) := by
  rw [step_cons h, deliver, assertReset]

theorem step_releaseRst {s : State} {rest : List BusEvent} (hrst : s.rst = true) (h : s.agenda = .releaseRst :: rest) :
    step s = .next (resetBlock false { s with agenda := rest }) := by
  rw [step_cons h, deliver, releaseReset_asserted (s := { s with agenda := rest }) hrst]

/-! ### TOTP_STEPS without a secret -/

theorem exec_totpSteps_sentinel {s : State} (unkeyed : s.keyLen = 0) :
    exec .totpSteps s = .next (finish .ok (setSentinel s)) := by
  rw [exec_totpSteps, totpResult_unkeyed _ unkeyed]

end Sys2Proof.Machine
end

section
/-! The statements about the reset input and the state it leaves. -/

namespace Sys2Proof.Machine

/-- Settles O44: under `rst` ENGINE's turn is idle and an access stops, and both edges leave `resetBlock`. -/
theorem resetSetsEveryElement : Obligations.ResetSetsEveryElement := by
  refine ⟨fun s hrst hnext => ?_, fun s off width v rest hrst hoff haccess => ?_, fun s rest hedge => ?_⟩
  · rw [step_engineNext hnext, engineTurn_duringReset (s := taken s) hrst]
  · obtain ⟨use, hstep⟩ := step_eq_access haccess
    rw [hstep, access_duringReset (s := { s with agenda := rest }) width use (by omega) (by omega) hrst]
  · obtain hassert | ⟨hrelease, hrst⟩ := hedge
    · exact ⟨true, iff_of_true rfl hassert, step_assertRst hassert⟩
    · have notAssert : s.agenda ≠ .assertRst :: rest := by rw [hrelease]; nofun
      exact ⟨false, iff_of_false nofun notAssert, step_releaseRst hrst hrelease⟩

/-- Settles O45: nothing is in flight, and KEYLEN = 0 whatever ARG holds. -/
theorem afterResetTheBlockIsIdleWithoutASecret : Obligations.AfterResetTheBlockIsIdleWithoutASecret := by
  refine ⟨fun rdata => ?_, irq_eq_false_of_not_done rfl, (keySet_eq_false_iff _).mpr rfl, rfl, rfl, fun argLo argHi => ?_⟩
  · rw [step_nil rfl, engineTurn_idle rfl]
  · exact ⟨_, _, _, exec_totpSteps_sentinel rfl, rfl, rfl, exec_totpTime_sentinel (.inl rfl), rfl, rfl,
      exec_hmacInit_nokey rfl, rfl⟩

/-- Settles O48: the state right after reset is what a release of `rst` leaves of it. -/
theorem resetMeetsTheInvariant : Obligations.ResetMeetsTheInvariant :=
  BlockInvariant.resetBlock false State.reset

end Sys2Proof.Machine
end
